-- ==== Sys2Proof/Word.lean ====
section
/-!
DEFINITION. The words of the controller (00_scope.md R8 to R12): bytes, 16-bit cursors, 32-bit command and response
words, payloads typed by their length, and the two small sets of names the rest of the model speaks of: the ports
(R2, 60_exceptions.md R181) and the error codes (60_exceptions.md R181).
-/

namespace Sys2Proof

/-- The data item, an 8-bit byte (00 R10's table). -/
abbrev Byte := BitVec 8

/-- A cursor, mask or count: 16 bits, arithmetic modulo 2^16 (00 R8, R12). -/
abbrev Cursor := BitVec 16

/-- A command, response, STATUS or SNAP word (30 R84, R90; 10 R39, R40). -/
abbrev Word := BitVec 32

/-- A byte vector of exactly `n` bytes, byte 0 first (30 R92: a model builds the payload as a vector of length LEN,
so that no other length can be written down). -/
@[ext] structure Payload (n : Nat) where
  bytes : List Byte
  size : bytes.length = n
deriving DecidableEq, Repr

/-- The payload of `n` zero bytes. -/
def Payload.zeros (n : Nat) : Payload n := ⟨List.replicate n 0#8, List.length_replicate⟩

/-- The three command ports: C binds, W is the writer, R the reader (00 R2). -/
inductive Port where
  | C | W | R
deriving DecidableEq, Repr

/-- The error codes ERRCODE can hold (60 R181). Code 7 is never written, so it has no name. -/
inductive ErrCode where
  | none
  | illegalOpcode
  | wrongPort
  | reservedField
  | bindConflict
  | badExponent
  | unbound
deriving DecidableEq, Repr

/-- The number of each code (60 R181). -/
def ErrCode.bits : ErrCode → BitVec 3
  | .none => 0
  | .illegalOpcode => 1
  | .wrongPort => 2
  | .reservedField => 3
  | .bindConflict => 4
  | .badExponent => 5
  | .unbound => 6

/-- `portcode` of 60 R182. -/
def Port.code : Port → BitVec 2
  | .C => 1
  | .W => 2
  | .R => 3

/-- ERRPORT's number: 0 is none (10 R29). -/
def Port.codeOrNone : Option Port → BitVec 2
  | none => 0
  | some p => p.code

end Sys2Proof
end

