-- ==== Sys2Proof/Config.lean ====
section
/-!
DEFINITION. What an implementation fixes, and the model's one free value (notes/assumptions 1 and 3).
-/

namespace Sys2Proof

/-- The largest capacity exponent, fixed and no parameter (00 R7). -/
def Config.nMax : Nat := 16

/-- DESIGN CHOICE [1]: the storage address width ADDR_W of the machine `State.reset` starts. The spec leaves ADDR_W
open (at least 16, 00 R9), so it is a field of State and a statement holds for every value of it. -/
def Config.resetAddrW : Nat := 32

/-- FREE VALUE [3]: the byte at a storage address that nothing has written yet. Its contents are the caller's, "any
value" (10 R42, R44; 93 U8), so it has no body and nothing can be proved of it. -/
opaque Config.storageByte : Nat → Byte

end Sys2Proof
end

