-- ==== Sys2Proof/Syntax.lean ====
section
/-!
DEFINITION. The commands of spec/opcode_table.json, one constructor per row, each with the operands of 30_encoding.md
R85 and R89, and with its port where R87 leaves more than one.
-/

namespace Sys2Proof

/-- A command as a port presents it: the fields its word uses, and its separate operands (30 R85). -/
inductive Instr where
  /-- NOP, on any port (40 R110). -/
  | nop (port : Port)
  /-- BIND, on C: the exponent field N, 0 to 255, and the base address on `C_addr` (40 R111). -/
  | bind (n : Byte) (base : Nat)
  /-- COUNT, on W or R (40 R114). -/
  | count (port : Port)
  /-- PUSHB, on W: the byte (41 R140). -/
  | pushb (v : Byte)
  /-- PUSHN, on W: LEN and its payload of exactly LEN bytes (42 R161, 30 R92). -/
  | pushn (len : Cursor) (pay : Payload len.toNat)
  /-- POPB, on R (41 R141). -/
  | popb
  /-- POPN, on R: LEN (42 R162). -/
  | popn (len : Cursor)
  /-- CHKF, on W or R (40 R115). -/
  | chkf (port : Port)
  /-- CHKF.CLR, on R (40 R116). -/
  | chkfClr
deriving DecidableEq, Repr

end Sys2Proof
end

