-- ==== Sys2Proof/WellFormed.lean ====
section
/-!
DEFINITION. The port of a command, and which commands can be presented at all (30_encoding.md R87): the checks that
the types of Sys2Proof/Syntax.lean do not already make.
-/

namespace Sys2Proof

/-- The port a command stands on. -/
def Instr.port : Instr → Port
  | .nop p => p
  | .bind _ _ => .C
  | .count p => p
  | .pushb _ => .W
  | .pushn _ _ => .W
  | .popb => .R
  | .popn _ => .R
  | .chkf p => p
  | .chkfClr => .R

/-- A command stands on a port of its row of 30 R87. Only COUNT and CHKF can be written down on a wrong one (C). -/
def Instr.wellFormed : Instr → Bool
  | .nop _ => true
  | .bind _ _ => true
  | .count p => p != .C
  | .pushb _ => true
  | .pushn _ _ => true
  | .popb => true
  | .popn _ => true
  | .chkf p => p != .C
  | .chkfClr => true

/-- A command other than NOP: what 60 R182 tests by `not in {none, NOP}`. -/
def Instr.isNop : Instr → Bool
  | .nop _ => true
  | .bind _ _ => false
  | .count _ => false
  | .pushb _ => false
  | .pushn _ _ => false
  | .popb => false
  | .popn _ => false
  | .chkf _ => false
  | .chkfClr => false

end Sys2Proof
end

