-- ==== Sys2Proof/Decode.lean ====
section
/-!
DEFINITION. Decoding a command word on a port, total, each refusal under its error code (30_encoding.md R84 to R89, R94;
the table's masks and matches stand in R88), and the encoder written from the same tables.
-/

namespace Sys2Proof

/-- A field's value placed at bit `lo` of a word, every other bit 0. -/
def place {n : Nat} (v : BitVec n) (lo : Nat) : Word := v.setWidth 32 <<< lo

/-! ### The fields of the command word (30 R84) -/

/-- OP, bits [3:0]. -/
def opOf (w : Word) : BitVec 4 := w.extractLsb' 0 4

/-- CLR, bit [4]. -/
def clrOf (w : Word) : Bool := w.getLsbD 4

/-- RSV, bits [7:5]. -/
def rsvOf (w : Word) : BitVec 3 := w.extractLsb' 5 3

/-- IMM8, bits [15:8]. -/
def immOf (w : Word) : Byte := w.extractLsb' 8 8

/-- LEN, bits [31:16]. -/
def lenOf (w : Word) : Cursor := w.extractLsb' 16 16

/-! ### The rows of the table -/

/-- The mnemonic `m` that 30 R88 reads from a word before it checks port and reserved fields. -/
inductive Kind where
  | nop | bind | count | pushb | pushn | popb | popn | chkf | chkfClr
deriving DecidableEq, Repr

/-- The opcode map (30 R86): `none` is a reserved opcode, 0x8 to 0xF. -/
def kindOf (w : Word) : Option Kind :=
  match (opOf w).toNat with
  | 0 => some .nop
  | 1 => some .bind
  | 2 => some .count
  | 3 => some .pushb
  | 4 => some .pushn
  | 5 => some .popb
  | 6 => some .popn
  | 7 => some (if clrOf w then .chkfClr else .chkf)
  | _ => none

/-- Port legality (30 R87). -/
def Kind.legalOn : Kind → Port → Bool
  | .nop, _ => true
  | .bind, p => p == .C
  | .count, p => p != .C
  | .pushb, p => p == .W
  | .pushn, p => p == .W
  | .popb, p => p == .R
  | .popn, p => p == .R
  | .chkf, p => p != .C
  | .chkfClr, p => p == .R

/-- `Mask(m)` of 30 R88. -/
def Kind.mask : Kind → Word
  | .nop => 0xFFFFFFFF
  | .bind => 0xFFFF00FF
  | .count => 0xFFFFFFFF
  | .pushb => 0xFFFF00FF
  | .pushn => 0x0000FFFF
  | .popb => 0xFFFFFFFF
  | .popn => 0x0000FFFF
  | .chkf => 0xFFFFFFFF
  | .chkfClr => 0xFFFFFFFF

/-- `Match(m)` of 30 R88. -/
def Kind.pattern : Kind → Word
  | .nop => 0x00000000
  | .bind => 0x00000001
  | .count => 0x00000002
  | .pushb => 0x00000003
  | .pushn => 0x00000004
  | .popb => 0x00000005
  | .popn => 0x00000006
  | .chkf => 0x00000007
  | .chkfClr => 0x00000017

/-- The row of the table a command belongs to. -/
def Instr.kind : Instr → Kind
  | .nop _ => .nop
  | .bind _ _ => .bind
  | .count _ => .count
  | .pushb _ => .pushb
  | .pushn _ _ => .pushn
  | .popb => .popb
  | .popn _ => .popn
  | .chkf _ => .chkf
  | .chkfClr => .chkfClr

/-! ### Decoding (30 R88, R89) -/

/-- How many payload bytes a word's port carries with it: LEN for a PUSHN, none for every other word (30 R92) [5]. -/
def payLen (w : Word) : Nat :=
  if kindOf w = some .pushn then (lenOf w).toNat else 0

theorem payLen_of_pushn {w : Word} (h : kindOf w = some .pushn) : payLen w = (lenOf w).toNat := by
  simp [payLen, h]

/-- Operand assembly (30 R89): the command of kind `k` that the word `w` on port `p` stands for. -/
def assemble (p : Port) (w : Word) (addr : Nat) (pay : Payload (payLen w)) :
    (k : Kind) → kindOf w = some k → Instr
  | .nop, _ => .nop p
  | .bind, _ => .bind (immOf w) addr
  | .count, _ => .count p
  | .pushb, _ => .pushb (immOf w)
  | .pushn, h => .pushn (lenOf w) ⟨pay.bytes, pay.size.trans (payLen_of_pushn h)⟩
  | .popb, _ => .popb
  | .popn, _ => .popn (lenOf w)
  | .chkf, _ => .chkf p
  | .chkfClr, _ => .chkfClr

/-- `Decode(P, w)` of 30 R88, with the operands that stand beside the word: `addr` is `C_addr`, `pay` is `W_pay`. -/
def decode (p : Port) (w : Word) (addr : Nat) (pay : Payload (payLen w)) : Except ErrCode Instr :=
  match h : kindOf w with
  | none => .error .illegalOpcode
  | some k =>
    if k.legalOn p then
      if w &&& k.mask = k.pattern then .ok (assemble p w addr pay k h) else .error .reservedField
    else .error .wrongPort

/-! ### Encoding (30 R84, R85) -/

/-- The word with the given fields, RSV being 0 (30 R84). -/
def fields (op : BitVec 4) (clr : BitVec 1) (imm : Byte) (len : Cursor) : Word :=
  place op 0 ||| place clr 4 ||| place imm 8 ||| place len 16

/-- The command word of a command (30 R85). -/
def encode : Instr → Word
  | .nop _ => fields 0x0 0 0 0
  | .bind n _ => fields 0x1 0 n 0
  | .count _ => fields 0x2 0 0 0
  | .pushb v => fields 0x3 0 v 0
  | .pushn len _ => fields 0x4 0 0 len
  | .popb => fields 0x5 0 0 0
  | .popn len => fields 0x6 0 0 len
  | .chkf _ => fields 0x7 0 0 0
  | .chkfClr => fields 0x7 1 0 0

@[simp] theorem opOf_fields (op clr imm len) : opOf (fields op clr imm len) = op := by
  ext i hi
  simp [opOf, fields, place, show i < 8 by omega, show i < 16 by omega, hi, show i < 32 by omega]

@[simp] theorem clrOf_fields (op clr imm len) : clrOf (fields op clr imm len) = clr.getLsbD 0 := by
  simp [clrOf, fields, place]

@[simp] theorem immOf_fields (op clr imm len) : immOf (fields op clr imm len) = imm := by
  ext i hi
  simp [immOf, fields, place, hi, show 8 + i < 16 by omega, show 8 + i < 32 by omega,
    BitVec.getLsbD_of_ge op (8 + i) (by omega), BitVec.getLsbD_of_ge clr (8 + i - 4) (by omega)]

@[simp] theorem lenOf_fields (op clr imm len) : lenOf (fields op clr imm len) = len := by
  ext i hi
  simp [lenOf, fields, place, show 16 + i < 32 by omega, BitVec.getLsbD_of_ge op (16 + i) (by omega),
    BitVec.getLsbD_of_ge clr (16 + i - 4) (by omega), BitVec.getLsbD_of_ge imm (16 + i - 8) (by omega),
    BitVec.getLsbD_eq_getElem hi]

theorem payLen_encode_pushn (len : Cursor) (pay : Payload len.toNat) :
    payLen (encode (.pushn len pay)) = len.toNat := by
  simp [payLen, kindOf, encode]

/-! ### The table's words, for the host's probes -/

/-- [12] The port on which a word of the table is tried: the writer's, unless only C or only R may present its command
(30 R87). -/
def tablePort (w : Word) : Port :=
  match kindOf w with
  | some .bind => .C
  | some .popb => .R
  | some .popn => .R
  | some .chkfClr => .R
  | _ => .W

/-- The 32-bit word of a table row's bits: every bit above `nbits` is 0. -/
def tableWord (nbits w : Nat) : Word := BitVec.ofNat 32 (w % 2 ^ nbits)

/-- What the decoder reads from a table row's word; its separate operands are zeros [12]. -/
def decodeTableWord (nbits w : Nat) : Option Instr :=
  let word := tableWord nbits w
  (decode (tablePort word) word 0 (Payload.zeros (payLen word))).toOption

end Sys2Proof
end

