-- ==== Sys2Proof/Machine/State.lean ====
section
/-!
DEFINITION. The state of the controller: every register of 10_state.md R21 and R41, the storage of R42, the parameter
ADDR_W and the pending port inputs; the outcomes a step can name; and the state after reset (R44).
-/

namespace Sys2Proof.Machine

/-- A port's response register (10 R41): its valid bit and its word. -/
structure Rsp where
  valid : Bool
  word : Word
deriving DecidableEq, Repr

/-- What the C port presents at an edge: the command word and `C_addr` (30 R80). -/
structure CCmd where
  word : Word
  addr : Nat
deriving DecidableEq, Repr

/-- What the W port presents at an edge: the command word and `W_pay`, as long as the word says (30 R80, R92) [5]. -/
structure WCmd where
  word : Word
  pay : Payload (payLen word)
deriving DecidableEq, Repr

/-- The inputs of one rising edge of `clk`: one line of a script (30 R80, R95). `none` is `P_valid = 0`. -/
structure Edge where
  rst : Bool
  c : Option CCmd
  w : Option WCmd
  r : Option Word
deriving DecidableEq, Repr

/-- The storage bytes that have been written: (address, byte) pairs, addresses strictly rising. An address that is not
listed has no value here; `State.readByte` says what reading it gives. -/
abbrev Mem := List Host.Cell

/-- The whole state. -/
structure State where
  /-- ADDR_W (00 R9), an implementation parameter that no step changes [1]. -/
  addrW : Nat
  /-- EXP (10 R22). -/
  exp : BitVec 5
  /-- MASK (10 R23). -/
  mask : Cursor
  /-- BASE (10 R24), an address below 2^ADDR_W [1]. -/
  base : Nat
  /-- FRONT (10 R25). -/
  front : Cursor
  /-- BACK (10 R26). -/
  back : Cursor
  /-- FAULT (10 R27). -/
  fault : Bool
  /-- BOUND (10 R28). -/
  bound : Bool
  /-- FATAL (10 R29). -/
  fatal : Bool
  /-- ERRCODE (10 R29, 60 R181). -/
  errcode : ErrCode
  /-- ERRPORT (10 R29); `none` is 0. -/
  errport : Option Port
  /-- `rsp_valid_C`, `rsp_C` (10 R41). -/
  rspC : Rsp
  /-- `rsp_valid_W`, `rsp_W` (10 R41). -/
  rspW : Rsp
  /-- `rsp_valid_R`, `rsp_R` (10 R41). -/
  rspR : Rsp
  /-- `rsp_pay_R` (10 R41). -/
  rspPayR : List Byte
  /-- The storage (10 R42). -/
  mem : Mem
  /-- The model's own field [2]: what the three hosts present at the coming edges, the next edge first. -/
  inputs : List Edge
deriving DecidableEq, Repr

/-- The reasons a step could stop the machine: none. A precondition violation is a next state with FATAL = 1, in which
every later edge is again a step (60 R184, R185; 70 R222), so nothing raises a fault, and nothing false is proved by
one [11]. -/
inductive Fault where
deriving DecidableEq, Repr

/-- The reasons a step can refuse. -/
inductive Refusal where
  /-- Raised by an arm of `exec` whose instruction has no meaning yet; safe, since nothing is then proved of it. No arm
  uses it: every instruction has its meaning. -/
  | notModelled (mnemonic : String)
deriving DecidableEq, Repr

/-- The outcome of a step of this machine. -/
abbrev Result := Host.Outcome State Fault Refusal

/-- A response register after reset (10 R44). -/
def Rsp.reset : Rsp := ⟨false, 0x00000000⟩

/-- The machine right after a reset edge (10 R44), with address width `addrW`, no storage byte written yet [3] and
nothing presented on any port [2]. -/
def State.resetWith (addrW : Nat) : State where
  addrW := addrW
  exp := 0
  mask := 0x0000
  base := 0
  front := 0x0000
  back := 0x0000
  fault := false
  bound := false
  fatal := false
  errcode := .none
  errport := none
  rspC := Rsp.reset
  rspW := Rsp.reset
  rspR := Rsp.reset
  rspPayR := []
  mem := []
  inputs := []

/-- The machine right after reset (10 R44), at the address width the model starts with [1]. -/
def State.reset : State := State.resetWith Config.resetAddrW

end Sys2Proof.Machine
end

