-- ==== Sys2Proof/Machine/Flags.lean ====
section
/-!
DEFINITION. The derived signals (10_state.md R30 to R35), the status outputs (R38 to R40), the ready output
(30_encoding.md R82) and the serialisation of FAULT within an edge (20_memory.md R62).
-/

namespace Sys2Proof.Machine

/-- UNREAD (10 R31). -/
def State.unread (s : State) : Cursor := (s.back - s.front) &&& s.mask

/-- FREE (10 R32). -/
def State.free (s : State) : Cursor := s.mask - s.unread

/-- EMPTY (10 R33). -/
def State.empty (s : State) : Bool := s.front == s.back

/-- FULL (10 R34). -/
def State.full (s : State) : Bool := s.unread == s.mask

/-- CAP, the reported capacity, 17 bits (10 R30). -/
def State.cap (s : State) : BitVec 17 := if s.exp = 0 then 0 else s.mask.setWidth 17 + 1

/-- A flag as one bit of a word. -/
def bit (b : Bool) : BitVec 1 := BitVec.ofBool b

/-- `status_o`, the STATUS word (10 R39). The bits of no field read 0. -/
def State.status (s : State) : Word :=
  place (bit s.empty) 0 ||| place (bit s.full) 1 ||| place (bit s.fault) 2 ||| place (bit s.bound) 3 |||
    place (bit s.fatal) 4 ||| place s.errcode.bits 8 ||| place (Port.codeOrNone s.errport) 11 ||| place s.exp 16

/-- `snap_o`, the SNAP word {BACK, FRONT} (10 R40). -/
def State.snap (s : State) : Word := place s.front 0 ||| place s.back 16

/-- `count_o` (10 R38). -/
def State.countOut (s : State) : Cursor := s.unread

/-- `cap_o` (10 R38). -/
def State.capOut (s : State) : BitVec 17 := s.cap

/-- `C_ready`, `W_ready` and `R_ready` at an edge with this `rst` (30 R82). -/
def State.ready (s : State) (rst : Bool) : Bool := !rst && !s.fatal

/-- `f1` of 20 R62: FAULT as the R-port command finds it, after the W-port command `w`, which was a rejected PUSHB if
`rejected`. -/
def faultAfterW (f0 : Bool) (w : Option Instr) (rejected : Bool) : Bool :=
  match w.map Instr.kind with
  | some .pushb => if rejected then true else f0
  | some .chkf => false
  | _ => f0

/-- `FaultSerial` of 20 R62: the new FAULT after an edge that commits the commands `w` and `r`. -/
def faultSerial (f0 : Bool) (w : Option Instr) (rejected : Bool) (r : Option Instr) : Bool :=
  match r.map Instr.kind with
  | some .chkf => false
  | some .chkfClr => false
  | _ => faultAfterW f0 w rejected

end Sys2Proof.Machine
end

