-- ==== Sys2Proof/Machine/Ops.lean ====
section
/-!
DEFINITION. The operations every command is made of: the storage by one byte (20_memory.md R50 to R52, R56), the
response channels (30_encoding.md R83), reset (70_reset_and_hazards.md R210), and the error check and fatal entry of
60_exceptions.md R181 to R186.
-/

namespace Sys2Proof.Machine

/-! ### The storage as plain data -/

/-- The byte last written at address `a`, if one was. -/
def Mem.read : Mem → Nat → Option Byte
  | [], _ => none
  | (k, v) :: m, a => if k = a then some v else Mem.read m a

/-- Byte `v` written at address `a`, the list kept in rising order. -/
def Mem.write : Mem → Nat → Byte → Mem
  | [], a, v => [(a, v)]
  | (k, x) :: m, a, v =>
    if a < k then (a, v) :: (k, x) :: m
    else if a = k then (a, v) :: m
    else (k, x) :: Mem.write m a v

/-- The canonical form: addresses strictly rising. (An unlisted address has no value, so no entry can equal it.) -/
def Mem.wf : Mem → Bool
  | [] => true
  | [_] => true
  | (a, _) :: (b, y) :: m => decide (a < b) && Mem.wf ((b, y) :: m)

/-! ### Slots and one-byte accesses -/

/-- `Slot(i)`, the storage address of cursor index `i` (20 R51). -/
def State.slot (s : State) (i : Cursor) : Nat := (s.base + i.toNat) % 2 ^ s.addrW

/-- `MemRead(a, 1)` (00 R13): the byte last written at `a`, or the caller's free value where nothing was [3]. -/
def State.readByte (s : State) (a : Nat) : Byte := (s.mem.read a).getD (Config.storageByte a)

/-- `MemWrite(a, 1, v)` (00 R13). -/
def State.writeByte (s : State) (a : Nat) (v : Byte) : State := { s with mem := s.mem.write a v }

/-- A read of slot `i`. -/
def State.readSlot (s : State) (i : Cursor) : Byte := s.readByte (s.slot i)

/-- A write of slot `i`. -/
def State.writeSlot (s : State) (i : Cursor) (v : Byte) : State := s.writeByte (s.slot i) v

/-! ### Responses -/

/-- Every response register's valid bit cleared, as at an edge that loads none of them (10 R41, 20 R60) [6]. -/
def State.quiet (s : State) : State :=
  { s with
    rspC := { s.rspC with valid := false }
    rspW := { s.rspW with valid := false }
    rspR := { s.rspR with valid := false } }

/-- `respond(P, word, payload)` of 00 R13. Only R has a payload register (10 R41). -/
def State.respond (s : State) (p : Port) (word : Word) (pay : List Byte := []) : State :=
  match p with
  | .C => { s with rspC := ⟨true, word⟩ }
  | .W => { s with rspW := ⟨true, word⟩ }
  | .R => { s with rspR := ⟨true, word⟩, rspPayR := pay }

/-! ### Reset -/

/-- An edge with `rst = 1` (70 R210): every register at its value of 10 R44, the storage untouched. -/
def State.resetEdge (s : State) : State :=
  { State.resetWith s.addrW with mem := s.mem, inputs := s.inputs }

/-! ### Errors -/

/-- Fatal entry (60 R184), the one way an error is taken: the three error registers are written, no response is valid,
and nothing else changes. -/
def State.fatalEntry (s : State) (e : ErrCode) (p : Port) : State :=
  { s.quiet with fatal := true, errcode := e, errport := some p }

/-- The commands accepted at an edge, decoded, by port. -/
structure Accepted where
  c : Option Instr
  w : Option Instr
  r : Option Instr
deriving DecidableEq, Repr

/-- `not in {none, NOP}` of 60 R182. -/
def active : Option Instr → Bool
  | none => false
  | some i => !i.isNop

/-- Parts 2 and 3 of `FirstError` (60 R182): what the state and the company of the other ports forbid to well-formed
commands. -/
def semanticError (s : State) (d : Accepted) : Option (ErrCode × Port) :=
  match d.c with
  | some (.bind n _) =>
    if active d.w then some (.bindConflict, .W)
    else if active d.r then some (.bindConflict, .R)
    else if Config.nMax < n.toNat then some (.badExponent, .C)
    else none
  | _ =>
    if s.bound then none
    else if active d.w then some (.unbound, .W)
    else if active d.r then some (.unbound, .R)
    else none

/-- The command `i` accepted on its port and none on the others. -/
def alone (i : Instr) : Accepted :=
  match i.port with
  | .C => ⟨some i, none, none⟩
  | .W => ⟨none, some i, none⟩
  | .R => ⟨none, none, some i⟩

/-- `FirstError` (60 R182) for the command `i` alone. No word decodes to a command on a wrong port (30 R88), so the first
test is met by decoded commands [8]. -/
def aloneError (s : State) (i : Instr) : Option (ErrCode × Port) :=
  if i.wellFormed then semanticError s (alone i) else some (.wrongPort, i.port)

/-- The edge at which the command `i` alone is presented (20 R60) [7]: not accepted while FATAL = 1 (60 R185), fatal entry
where it is in error, else its effect `body` on the state with the response registers cleared. -/
def State.accept (s : State) (i : Instr) (body : State → State) : Result :=
  if s.fatal then .next s.quiet
  else
    match aloneError s i with
    | some (e, p) => .next (s.fatalEntry e p)
    | none => .next (body s.quiet)

end Sys2Proof.Machine
end

