-- ==== Sys2Proof/Machine/Operands.lean ====
section
/-!
DEFINITION. The response word (30_encoding.md R90), the masked cursor advance (00_scope.md R12), the clamp, the
wraparound split and the runs of one-byte accesses of a bulk transfer (42_bulk_transfer.md R160 to R162).
-/

namespace Sys2Proof.Machine

/-- The response word with the given CNT, DATA and FLAG (30 R90). -/
def response (cnt : Cursor) (data : Byte) (flag : Bool) : Word :=
  place cnt 0 ||| place data 16 ||| place (bit flag) 24

/-- `(x +16 k) & MASK` (00 R12). -/
def State.advance (s : State) (x : Cursor) (k : Nat) : Cursor := (x + BitVec.ofNat 16 k) &&& s.mask

/-- `min(LEN, available)`, the clamp of a bulk transfer (42 R161, R162). -/
def clamp (len available : Cursor) : Nat := min len.toNat available.toNat

/-- `room` of 42 R160: the slots from `start` to the end of the storage, 17-bit arithmetic. -/
def State.room (s : State) (start : Cursor) : Nat := ((s.mask.setWidth 17 + 1) - start.setWidth 17).toNat

/-- `len1` of `Split(start, n)` (42 R160); `len2` is `n - len1`. -/
def State.splitLen (s : State) (start : Cursor) (n : Nat) : Nat := min n (s.room start)

/-- One contiguous segment written: byte j at index `i + j`. -/
def State.writeRun (s : State) (i : Cursor) : List Byte → State
  | [] => s
  | b :: bs => (s.writeSlot i b).writeRun (i + 1) bs

/-- One contiguous segment read: `n` bytes from index `i`. -/
def State.readRun (s : State) (i : Cursor) : Nat → List Byte
  | 0 => []
  | n + 1 => s.readSlot i :: s.readRun (i + 1) n

/-- The storage writes of a PUSHN of the bytes `bytes` from index `start`, in at most two segments (42 R160, R161). -/
def State.writeSplit (s : State) (start : Cursor) (bytes : List Byte) : State :=
  let len1 := s.splitLen start bytes.length
  (s.writeRun start (bytes.take len1)).writeRun 0 (bytes.drop len1)

/-- The storage reads of a POPN of `n` bytes from index `start`, in at most two segments (42 R160, R162). -/
def State.readSplit (s : State) (start : Cursor) (n : Nat) : List Byte :=
  let len1 := s.splitLen start n
  s.readRun start len1 ++ s.readRun 0 (n - len1)

end Sys2Proof.Machine
end

