-- ==== Sys2Proof/Machine/BulkTransfer.lean ====
section
/-!
DEFINITION. The bulk transfers PUSHN and POPN (42_bulk_transfer.md).
-/

namespace Sys2Proof.Machine

/-- PUSHN (42 R161): as many bytes of the payload as are free, in at most two segments; FAULT is not touched (R165). -/
def execPushn (len : Cursor) (pay : Payload len.toNat) (s : State) : Result :=
  s.accept (.pushn len pay) fun s =>
    let n := clamp len s.free
    { s.writeSplit s.back (pay.bytes.take n) with back := s.advance s.back n }.respond .W
      (response (BitVec.ofNat 16 n) 0 false)

/-- POPN (42 R162): as many bytes as are unread, in at most two segments. -/
def execPopn (len : Cursor) (s : State) : Result :=
  s.accept (.popn len) fun s =>
    let n := clamp len s.unread
    { s with front := s.advance s.front n }.respond .R (response (BitVec.ofNat 16 n) 0 false)
      (s.readSplit s.front n)

end Sys2Proof.Machine
end

