-- ==== Sys2Proof/Machine/ByteTransfer.lean ====
section
/-!
DEFINITION. The single-byte transfers PUSHB and POPB (41_byte_transfer.md).
-/

namespace Sys2Proof.Machine

/-- PUSHB (41 R140): stored if a slot besides the reserved one is free, else rejected with FAULT set. -/
def execPushb (v : Byte) (s : State) : Result :=
  s.accept (.pushb v) fun s =>
    if s.unread < s.mask then
      { s.writeSlot s.back v with back := s.advance s.back 1 }.respond .W (response 0 0 true)
    else
      { s with fault := true }.respond .W (response 0 0 false)

/-- POPB (41 R141): the oldest byte if there is one, else "no data", DATA being 0 (D16). -/
def execPopb (s : State) : Result :=
  s.accept .popb fun s =>
    if s.front != s.back then
      { s with front := s.advance s.front 1 }.respond .R (response 0 (s.readSlot s.front) true)
    else
      s.respond .R (response 0 0 false)

end Sys2Proof.Machine
end

