-- ==== Sys2Proof/Machine/ControlQuery.lean ====
section
/-!
DEFINITION. The control and query commands NOP, BIND, COUNT, CHKF and CHKF.CLR (40_control_query.md). Each is the edge at
which the command stands alone; Machine/Edge.lean composes the commands of one edge.
-/

namespace Sys2Proof.Machine

/-- NOP (40 R110): no register or storage byte is written, and no response is given. -/
def execNop (port : Port) (s : State) : Result :=
  s.accept (.nop port) fun s => s

/-- `((1 << N) - 1)[15:0]` (40 R111). -/
def maskOf (n : Byte) : Cursor := BitVec.ofNat 16 (2 ^ n.toNat - 1)

/-- BIND (40 R111). `C_addr` carries ADDR_W bits [1]. -/
def execBind (n : Byte) (base : Nat) (s : State) : Result :=
  s.accept (.bind n base) fun s =>
    { s with
      exp := n.setWidth 5
      mask := maskOf n
      base := base % 2 ^ s.addrW
      front := 0x0000
      back := 0x0000
      fault := false
      bound := true }.respond .C (response (maskOf n) 0 true)

/-- COUNT (40 R114). -/
def execCount (port : Port) (s : State) : Result :=
  s.accept (.count port) fun s => s.respond port (response s.unread 0 false)

/-- CHKF (40 R115): the prior FAULT is answered, and FAULT cleared. -/
def execChkf (port : Port) (s : State) : Result :=
  s.accept (.chkf port) fun s => { s with fault := false }.respond port (response 0 0 s.fault)

/-- CHKF.CLR (40 R116): all unread data dropped, the prior FAULT answered, and FAULT cleared. -/
def execChkfClr (s : State) : Result :=
  s.accept .chkfClr fun s => { s with front := s.back, fault := false }.respond .R (response 0 0 s.fault)

end Sys2Proof.Machine
end

