-- ==== Sys2Proof/Machine/Dispatch.lean ====
section
/-!
DEFINITION. One arm per command of spec/opcode_table.json: the meaning it has.
-/

namespace Sys2Proof.Machine

def exec (i : Instr) (s : State) : Host.Outcome State Fault Refusal :=
  match i with
  | .nop port => Sys2Proof.Machine.execNop port s
  | .bind n base => Sys2Proof.Machine.execBind n base s
  | .count port => Sys2Proof.Machine.execCount port s
  | .pushb v => Sys2Proof.Machine.execPushb v s
  | .pushn len pay => Sys2Proof.Machine.execPushn len pay s
  | .popb => Sys2Proof.Machine.execPopb s
  | .popn len => Sys2Proof.Machine.execPopn len s
  | .chkf port => Sys2Proof.Machine.execChkf port s
  | .chkfClr => Sys2Proof.Machine.execChkfClr s

end Sys2Proof.Machine
end

