-- ==== Sys2Proof/Machine/Edge.lean ====
section
/-!
DEFINITION. One rising edge of `clk` (20_memory.md R58 to R62): the words on the three ports decoded, the first error
found, and the accepted commands committed together.
-/

namespace Sys2Proof.Machine

/-! ### The ports -/

/-- The edge at which no port presents a command. -/
def Edge.idle : Edge := ⟨false, none, none, none⟩

/-- An edge with `rst = 1` and nothing else. -/
def Edge.reset : Edge := ⟨true, none, none, none⟩

/-- The next edge's inputs, and the state with them taken off: when the script has ended the ports are idle [2]. -/
def State.nextEdge (s : State) : Edge × State :=
  match s.inputs with
  | [] => (.idle, s)
  | e :: rest => (e, { s with inputs := rest })

/-- The C port's word with `C_addr`. C has no payload channel (30 R80). -/
def decodeC : Option CCmd → Except ErrCode (Option Instr)
  | none => .ok none
  | some c => (decode .C c.word c.addr (Payload.zeros _)).map some

/-- The W port's word with `W_pay`. W has no address operand (30 R80). -/
def decodeW : Option WCmd → Except ErrCode (Option Instr)
  | none => .ok none
  | some w => (decode .W w.word 0 w.pay).map some

/-- The R port's word, which has no operand beside it (30 R80). -/
def decodeR : Option Word → Except ErrCode (Option Instr)
  | none => .ok none
  | some r => (decode .R r 0 (Payload.zeros _)).map some

/-- Part 1 of `FirstError` (60 R182): malformed words in the port order C, W, R, else the commands presented. -/
def decodeEdge (e : Edge) : Except (ErrCode × Port) Accepted :=
  match decodeC e.c with
  | .error x => .error (x, .C)
  | .ok c =>
    match decodeW e.w with
    | .error x => .error (x, .W)
    | .ok w =>
      match decodeR e.r with
      | .error x => .error (x, .R)
      | .ok r => .ok ⟨c, w, r⟩

/-- `FirstError` (60 R182, R183). -/
def firstError (s : State) (e : Edge) : Option (ErrCode × Port) :=
  match decodeEdge e with
  | .error x => some x
  | .ok d => semanticError s d

/-! ### The commit (20 R60) -/

/-- The command of a port, or no command. -/
def execPort (i : Option Instr) (s : State) : Result :=
  match i with
  | none => .next s.quiet
  | some i => exec i s

/-- The one state an edge leaves, from the pre-edge state `s` and what its W command and its R command made of it: BACK, the
storage and W's response come from the W command, FRONT, FAULT and R's response from the R command (20 R60, R37). -/
def mergePorts (s sW sR : State) : State :=
  { s.quiet with
    back := sW.back
    mem := sW.mem
    rspW := sW.rspW
    front := sR.front
    fault := sR.fault
    rspR := sR.rspR
    rspPayR := sR.rspPayR }

/-- The commit of the commands of an edge that is in no error (20 R60). A BIND stands alone. Otherwise the W and the R
command both read the pre-edge state (R58), but that the R command finds FAULT as the W command left it (R62) [7]. -/
def commit (s : State) (d : Accepted) : Result :=
  match d.c with
  | some (.bind n base) => exec (.bind n base) s
  | _ =>
    match execPort d.w s with
    | .next sW =>
      match execPort d.r { s with fault := sW.fault } with
      | .next sR => .next (mergePorts s sW sR)
      | .fault f => .fault f
      | .refused r => .refused r
    | .fault f => .fault f
    | .refused r => .refused r

/-- `Step(S, rst, inC, inW, inR)` of 20 R60. -/
def edgeStep (s : State) (e : Edge) : Result :=
  if e.rst then .next s.resetEdge
  else if s.fatal then .next s.quiet
  else
    match decodeEdge e with
    | .error (x, p) => .next (s.fatalEntry x p)
    | .ok d =>
      match semanticError s d with
      | some (x, p) => .next (s.fatalEntry x p)
      | none => commit s d

/-! ### Presenting one command -/

/-- The address operand that stands beside a command's word. -/
def addrOf : Instr → Nat
  | .bind _ base => base
  | .nop _ => 0
  | .count _ => 0
  | .pushb _ => 0
  | .pushn _ _ => 0
  | .popb => 0
  | .popn _ => 0
  | .chkf _ => 0
  | .chkfClr => 0

/-- The payload that stands beside a command's word (30 R92). -/
def payOf : (i : Instr) → Payload (payLen (encode i))
  | .pushn len pay => ⟨pay.bytes, pay.size.trans (payLen_encode_pushn len pay).symm⟩
  | .nop _ => Payload.zeros _
  | .bind _ _ => Payload.zeros _
  | .count _ => Payload.zeros _
  | .pushb _ => Payload.zeros _
  | .popb => Payload.zeros _
  | .popn _ => Payload.zeros _
  | .chkf _ => Payload.zeros _
  | .chkfClr => Payload.zeros _

/-- The edge at which the word of `i` alone is presented, on its port and with its operands. -/
def Edge.ofInstr (i : Instr) : Edge :=
  match i.port with
  | .C => ⟨false, some ⟨encode i, addrOf i⟩, none, none⟩
  | .W => ⟨false, none, some ⟨encode i, payOf i⟩, none⟩
  | .R => ⟨false, none, none, some (encode i)⟩

/-- The edge at which the word `w` alone is presented on the port `p`, its operands zeros [12]. -/
def Edge.ofWord (p : Port) (w : Word) : Edge :=
  match p with
  | .C => ⟨false, some ⟨w, 0⟩, none, none⟩
  | .W => ⟨false, none, some ⟨w, Payload.zeros _⟩, none⟩
  | .R => ⟨false, none, none, some w⟩

/-! ### The pseudo-commands of 30 R96 -/

/-- FLUSH: drop all unread data and clear FAULT. -/
def Edge.flush : Edge := .ofInstr .chkfClr

/-- CLRFAULT on port `p`. -/
def Edge.clrFault (p : Port) : Edge := .ofInstr (.chkf p)

/-- DISABLE: bind the zero-capacity buffer. -/
def Edge.disable : Edge := .ofInstr (.bind 0 0)

/-- PUSHS: the bulk push of a literal list, of which a LEN field counts at most 65535 bytes. -/
def Edge.pushs (bytes : List Byte) (h : bytes.length < 2 ^ 16) : Edge :=
  .ofInstr (.pushn (BitVec.ofNat 16 bytes.length) ⟨bytes, by rw [BitVec.toNat_ofNat, Nat.mod_eq_of_lt h]⟩)

end Sys2Proof.Machine
end

