-- ==== Sys2Proof/Machine/Step.lean ====
section
/-!
DEFINITION. The controller's step: one rising edge of `clk` (00_scope.md R14, 20_memory.md R60).
-/

namespace Sys2Proof.Machine

/-- One step: the next line of the pending port inputs is the edge's. -/
def step (s : State) : Host.Outcome State Fault Refusal :=
  edgeStep s.nextEdge.2 s.nextEdge.1

/-- The host's probe: the word of a table row presented, alone and on a port its command is legal on, at the next
edge [12]. Any line that stood for that edge is replaced. -/
def State.withFetchWord (s : State) (nbits w : Nat) : State :=
  let word := tableWord nbits w
  { s with inputs := Edge.ofWord (tablePort word) word :: s.inputs.drop 1 }

end Sys2Proof.Machine
end

