-- ==== Sys2Proof/Safety.lean ====
section
/-!
DEFINITION. The terms claims use: the invariant of the registers (10_state.md R22 to R36, R44), the slots an unread byte
stands in (R43), the queue a state holds (41_byte_transfer.md R143), and a safe state (93 U11).
-/

namespace Sys2Proof.Machine

/-- ADDR_W and the addresses that fit it (00 R9, 10 R24, 20 R50), and the storage list's canonical form. -/
structure State.StorageInv (s : State) : Prop where
  addrW : 16 ≤ s.addrW
  base : s.base < 2 ^ s.addrW
  memWf : s.mem.wf = true
  memFits : ∀ cell ∈ s.mem, cell.1 < 2 ^ s.addrW

/-- The invariants of 10 R36, and of R22 to R26. -/
structure State.CursorInv (s : State) : Prop where
  exp : s.exp.toNat ≤ Config.nMax
  mask : s.mask = BitVec.ofNat 16 (2 ^ s.exp.toNat - 1)
  front : s.front &&& ~~~s.mask = 0
  back : s.back &&& ~~~s.mask = 0

/-- What stands with BOUND = 0 (R28, R44), with FATAL (R29, R185), and in the response registers (R41, 30 R92). -/
structure State.ControlInv (s : State) : Prop where
  unbound : s.bound = false → s.exp = 0 ∧ s.base = 0 ∧ s.fault = false
  noError : s.fatal = false → s.errcode = .none ∧ s.errport = none
  error : s.fatal = true → s.errcode ≠ .none ∧ s.errport ≠ none
  silent : s.fatal = true → s.rspC.valid = false ∧ s.rspW.valid = false ∧ s.rspR.valid = false
  payload : s.rspPayR.length ≤ 65535

/-- The invariant of the registers and the storage list. -/
structure State.Inv (s : State) : Prop where
  storage : s.StorageInv
  cursors : s.CursorInv
  control : s.ControlInv

/-- The cursor index of the `j`-th unread byte, the oldest first (20 R53). -/
def State.unreadIndex (s : State) (j : Nat) : Cursor := s.advance s.front j

/-- Every unread slot holds a byte that was written (10 R43). -/
def State.UnreadWritten (s : State) : Prop :=
  ∀ j, j < s.unread.toNat → (s.mem.read (s.slot (s.unreadIndex j))).isSome = true

/-- The bytes in the buffer, the oldest first: the reference queue of 41 R143 and 42 R166. -/
def State.queue (s : State) : List Byte :=
  (List.range s.unread.toNat).map fun j => s.readSlot (s.unreadIndex j)

/-- A safe state: no precondition was violated since the last reset (93 U11). -/
def State.Safe (s : State) : Prop := s.fatal = false

end Sys2Proof.Machine
end

