-- ==== Sys2Proof/Certificates/Slice0/Obligations.lean ====
section
/-!
DEFINITION. The statements for the provers, and the small vocabulary they are written in: the reference queue
(41_byte_transfer.md R143), the sequential orders of 20_memory.md R64, and the unused fields of 30_encoding.md R85.
-/

namespace Sys2Proof.Spec

open Sys2Proof Sys2Proof.Machine

/-- The fields that 30 R85 wants 0 are 0 (for CHKF.CLR, CLR is 1 and not among them). -/
def unusedFieldsZero (k : Kind) (w : Word) : Prop :=
  match k with
  | .nop => rsvOf w = 0 ∧ clrOf w = false ∧ immOf w = 0 ∧ lenOf w = 0
  | .bind => rsvOf w = 0 ∧ clrOf w = false ∧ lenOf w = 0
  | .count => rsvOf w = 0 ∧ clrOf w = false ∧ immOf w = 0 ∧ lenOf w = 0
  | .pushb => rsvOf w = 0 ∧ clrOf w = false ∧ lenOf w = 0
  | .pushn => rsvOf w = 0 ∧ clrOf w = false ∧ immOf w = 0
  | .popb => rsvOf w = 0 ∧ clrOf w = false ∧ immOf w = 0 ∧ lenOf w = 0
  | .popn => rsvOf w = 0 ∧ clrOf w = false ∧ immOf w = 0
  | .chkf => rsvOf w = 0 ∧ clrOf w = false ∧ immOf w = 0 ∧ lenOf w = 0
  | .chkfClr => rsvOf w = 0 ∧ clrOf w = true ∧ immOf w = 0 ∧ lenOf w = 0

/-- The response registers with no valid response, everything else as in `s`, the response words and R's payload among it
(log entry 6). -/
def silent (s : State) : State :=
  { s with
    rspC := ⟨false, s.rspC.word⟩
    rspW := ⟨false, s.rspW.word⟩
    rspR := ⟨false, s.rspR.word⟩ }

/-- The edge `e` is one at which the commands `d` are accepted: no reset, no FATAL, no error (20 R60). -/
structure Commits (s : State) (e : Edge) (d : Accepted) : Prop where
  noReset : e.rst = false
  noFatal : s.fatal = false
  decoded : decodeEdge e = .ok d
  noError : semanticError s d = none

/-- `d` binds. -/
def binds (d : Accepted) : Bool :=
  match d.c with
  | some (.bind _ _) => true
  | _ => false

/-- The W command is a PUSHB that is rejected (41 R140). -/
def rejects (s : State) (w : Option Instr) : Bool :=
  match w with
  | some (.pushb _) => !decide (s.unread < s.mask)
  | _ => false

/-- How many bytes the W command stores (41 R140, 42 R161). -/
def storedCount (s : State) (w : Option Instr) : Nat :=
  match w with
  | some (.pushb _) => if s.unread < s.mask then 1 else 0
  | some (.pushn len _) => min len.toNat s.free.toNat
  | _ => 0

/-- How many bytes the R command reads (41 R141, 42 R162). -/
def readCount (s : State) (r : Option Instr) : Nat :=
  match r with
  | none => 0
  | some i =>
    match i with
    | .nop _ => 0
    | .bind _ _ => 0
    | .count _ => 0
    | .pushb _ => 0
    | .pushn _ _ => 0
    | .popb => if s.front = s.back then 0 else 1
    | .popn len => min len.toNat s.unread.toNat
    | .chkf _ => 0
    | .chkfClr => 0

/-! ### The reference queue (41 R143, 42 R166) -/

/-- The bytes a W command adds to a queue `q` that may hold `cap` bytes. -/
def queuePushed (cap : Nat) (q : List Byte) (w : Option Instr) : List Byte :=
  match w with
  | some (.pushb v) => if q.length < cap then [v] else []
  | some (.pushn _ pay) => pay.bytes.take (cap - q.length)
  | _ => []

/-- The number of bytes an R command removes from a queue `q`, read or dropped. -/
def queueRemoved (q : List Byte) (r : Option Instr) : Nat :=
  match r with
  | none => 0
  | some i =>
    match i with
    | .nop _ => 0
    | .bind _ _ => 0
    | .count _ => 0
    | .pushb _ => 0
    | .pushn _ _ => 0
    | .popb => min 1 q.length
    | .popn len => min len.toNat q.length
    | .chkf _ => 0
    | .chkfClr => q.length

/-- What the R port answers to a pop of the queue `q`. That a POPB loads an empty payload is the model's reading (log
entry 6). -/
def popAnswers (q : List Byte) (r : Option Instr) (t : State) : Prop :=
  match r with
  | none => True
  | some i =>
    match i with
    | .nop _ => True
    | .bind _ _ => True
    | .count _ => True
    | .pushb _ => True
    | .pushn _ _ => True
    | .popb => t.rspR = ⟨true, response 0 (q.headD 0) (!q.isEmpty)⟩ ∧ t.rspPayR = []
    | .popn len =>
      t.rspR = ⟨true, response (BitVec.ofNat 16 (min len.toNat q.length)) 0 false⟩ ∧ t.rspPayR = q.take len.toNat
    | .chkf _ => True
    | .chkfClr => True

/-! ### Sequential execution (20 R64, 42 R163) -/

/-- A PUSHN whose LEN is cut to the count it returns; every other command unchanged (20 R64). -/
def cutToResult (s : State) : Option Instr → Option Instr
  | some (.pushn len pay) =>
    some (.pushn (BitVec.ofNat 16 (min len.toNat s.free.toNat))
      ⟨pay.bytes.take (min len.toNat s.free.toNat), by
        have h1 := pay.size
        have h2 := len.isLt
        rw [List.length_take, BitVec.toNat_ofNat, Nat.mod_eq_of_lt (by omega)]
        omega⟩)
  | i => i

/-- The orders that the table of 20 R64 gives: `true` is W then R. -/
def orderAllowed (s : State) (w r : Option Instr) (wFirst : Bool) : Bool :=
  match w.map Instr.kind, r.map Instr.kind with
  | some .pushb, some .popb => wFirst == s.full
  | some .pushb, some .popn => wFirst == s.full
  | some .pushb, some .chkf => wFirst == rejects s w
  | some .pushb, some .chkfClr => wFirst == rejects s w
  | some .pushb, some .count => !wFirst
  | some .pushn, some .popb => wFirst == !s.empty
  | some .pushn, some .popn => !wFirst
  | some .pushn, some .chkfClr => !wFirst
  | some .pushn, some .count => !wFirst
  | some .count, some .popb => wFirst
  | some .count, some .popn => wFirst
  | some .count, some .chkf => wFirst
  | some .count, some .chkfClr => wFirst
  | some .chkf, some .popb => wFirst
  | some .chkf, some .popn => wFirst
  | some .chkf, some .chkf => wFirst
  | some .chkf, some .chkfClr => wFirst
  | _, _ => true

/-- PUSHBs one after the other, each accepted: the state after the last. -/
def pushEach : List Byte → State → Option State
  | [], s => some s
  | b :: bs, s =>
    match exec (.pushb b) s with
    | .next t => if t.rspW.word = response 0 0 true then pushEach bs t else none
    | _ => none

/-- `n` POPBs one after the other, each finding a byte: the bytes, oldest first, and the state after the last. -/
def popEach : Nat → State → Option (List Byte × State)
  | 0, s => some ([], s)
  | n + 1, s =>
    match exec .popb s with
    | .next t =>
      let b : Byte := t.rspR.word.extractLsb' 16 8
      if t.rspR.word = response 0 b true then
        match popEach n t with
        | some (bs, u) => some (b :: bs, u)
        | none => none
      else none
    | _ => none

end Sys2Proof.Spec

open Sys2Proof Sys2Proof.Machine Sys2Proof.Spec

/-! ## Encoding -/

/-- 30 R85, R88, R89 and 95 E1, T63 to T67: words of the spec, each on a port, and what they stand for. -/
def Obligations.SpecWordsDecode : Prop :=
  decodeEdge ⟨false, some ⟨0x00000301, 0x1000⟩, none, none⟩ = .ok ⟨some (.bind 3 0x1000), none, none⟩ ∧
  decodeEdge ⟨false, none, some ⟨0x00004103, ⟨[], rfl⟩⟩, none⟩ = .ok ⟨none, some (.pushb 0x41), none⟩ ∧
  decodeEdge ⟨false, none, some ⟨0x00030004, ⟨[8, 9, 10], rfl⟩⟩, none⟩ =
    .ok ⟨none, some (.pushn 3 ⟨[8, 9, 10], rfl⟩), none⟩ ∧
  decodeEdge ⟨false, none, some ⟨0x00000002, ⟨[], rfl⟩⟩, some 0x00000005⟩ = .ok ⟨none, some (.count .W), some .popb⟩ ∧
  decodeEdge ⟨false, some ⟨0x00000000, 0⟩, some ⟨0x00000007, ⟨[], rfl⟩⟩, some 0x000A0006⟩ =
    .ok ⟨some (.nop .C), some (.chkf .W), some (.popn 10)⟩ ∧
  decodeEdge ⟨false, none, none, some 0x00000017⟩ = .ok ⟨none, none, some .chkfClr⟩ ∧
  decodeEdge ⟨false, none, none, some 0x00000008⟩ = .error (.illegalOpcode, .R) ∧
  decodeEdge ⟨false, none, none, some 0x00000103⟩ = .error (.wrongPort, .R) ∧
  decodeEdge ⟨false, none, some ⟨0x00000017, ⟨[], rfl⟩⟩, none⟩ = .error (.wrongPort, .W) ∧
  decodeEdge ⟨false, none, some ⟨0x00010002, ⟨[], rfl⟩⟩, none⟩ = .error (.reservedField, .W) ∧
  decodeEdge ⟨false, none, some ⟨0x00000013, ⟨[], rfl⟩⟩, none⟩ = .error (.reservedField, .W)

/-- 30 R85, R88, R89: the word of every well-formed command, presented on its port with its operands, decodes to it. -/
def Obligations.DecodeOfEncodeIsTheCommand : Prop :=
  ∀ i : Instr, i.wellFormed = true → decodeEdge (Edge.ofInstr i) = .ok (alone i)

/-- 30 R88, R93: a word that decodes is the one word of the command it decodes to, on that command's port, and the command
is well-formed. -/
def Obligations.EncodeOfDecodeIsTheWord : Prop :=
  ∀ (p : Port) (w : Word) (addr : Nat) (pay : Payload (payLen w)) (i : Instr),
    decode p w addr pay = .ok i → encode i = w ∧ i.port = p ∧ i.wellFormed = true

/-- 30 R88: Decode's checks, in order, and that it is total. -/
def Obligations.DecodeChecksInOrder : Prop :=
  ∀ (p : Port) (w : Word) (addr : Nat) (pay : Payload (payLen w)),
    (8 ≤ (opOf w).toNat → decode p w addr pay = .error .illegalOpcode) ∧
    ((opOf w).toNat < 8 → ∃ k, kindOf w = some k ∧
      (k.legalOn p = false → decode p w addr pay = .error .wrongPort) ∧
      (k.legalOn p = true → w &&& k.mask ≠ k.pattern → decode p w addr pay = .error .reservedField) ∧
      (k.legalOn p = true → w &&& k.mask = k.pattern → ∃ i, decode p w addr pay = .ok i ∧ encode i = w))

/-- 30 R85: on a legal port a word is a command exactly if every field it does not use is 0, and is RESERVED_FIELD
otherwise. -/
def Obligations.UnusedFieldIsReserved : Prop :=
  ∀ (p : Port) (w : Word) (addr : Nat) (pay : Payload (payLen w)) (k : Kind),
    kindOf w = some k → k.legalOn p = true →
      (unusedFieldsZero k w → ∃ i, decode p w addr pay = .ok i) ∧
      (¬ unusedFieldsZero k w → decode p w addr pay = .error .reservedField)

/-- 30 R89: no operand is extended, scaled or shifted. -/
def Obligations.OperandsAreTheFields : Prop :=
  ∀ (p : Port) (w : Word) (addr : Nat) (pay : Payload (payLen w)),
    (∀ v, decode p w addr pay = .ok (.pushb v) → v = w.extractLsb' 8 8) ∧
    (∀ n b, decode p w addr pay = .ok (.bind n b) → n = w.extractLsb' 8 8 ∧ b = addr) ∧
    (∀ len q, decode p w addr pay = .ok (.pushn len q) → len = w.extractLsb' 16 16 ∧ q.bytes = pay.bytes) ∧
    (∀ len, decode p w addr pay = .ok (.popn len) → len = w.extractLsb' 16 16) ∧
    (∀ q, decode p w addr pay = .ok (.chkf q) → w.getLsbD 4 = false) ∧
    (decode p w addr pay = .ok .chkfClr → w.getLsbD 4 = true)

/-- 30 R90: the fields of a response word; the bits of no field are 0. -/
def Obligations.ResponseWordFields : Prop :=
  ∀ (cnt : Cursor) (data : Byte) (flag : Bool),
    (response cnt data flag).extractLsb' 0 16 = cnt ∧
    (response cnt data flag).extractLsb' 16 8 = data ∧
    (response cnt data flag).getLsbD 24 = flag ∧
    (response cnt data flag).extractLsb' 25 7 = 0#7

/-! ## The outputs -/

/-- 10 R39, with the numbers of 60 R181 and 10 R29 that ERRCODE and ERRPORT show. -/
def Obligations.StatusWordFields : Prop :=
  ∀ s : State,
    s.status.getLsbD 0 = s.empty ∧ s.status.getLsbD 1 = s.full ∧ s.status.getLsbD 2 = s.fault ∧
    s.status.getLsbD 3 = s.bound ∧ s.status.getLsbD 4 = s.fatal ∧ s.status.extractLsb' 5 3 = 0#3 ∧
    s.status.extractLsb' 8 3 = s.errcode.bits ∧ s.status.extractLsb' 11 2 = Port.codeOrNone s.errport ∧
    s.status.extractLsb' 13 3 = 0#3 ∧ s.status.extractLsb' 16 5 = s.exp ∧ s.status.extractLsb' 21 11 = 0#11 ∧
    (s.errcode = .none → s.status.extractLsb' 8 3 = 0#3) ∧
    (s.errcode = .illegalOpcode → s.status.extractLsb' 8 3 = 1#3) ∧
    (s.errcode = .wrongPort → s.status.extractLsb' 8 3 = 2#3) ∧
    (s.errcode = .reservedField → s.status.extractLsb' 8 3 = 3#3) ∧
    (s.errcode = .bindConflict → s.status.extractLsb' 8 3 = 4#3) ∧
    (s.errcode = .badExponent → s.status.extractLsb' 8 3 = 5#3) ∧
    (s.errcode = .unbound → s.status.extractLsb' 8 3 = 6#3) ∧
    (s.errport = none → s.status.extractLsb' 11 2 = 0#2) ∧
    (s.errport = some .C → s.status.extractLsb' 11 2 = 1#2) ∧
    (s.errport = some .W → s.status.extractLsb' 11 2 = 2#2) ∧
    (s.errport = some .R → s.status.extractLsb' 11 2 = 3#2)

/-- 10 R40. -/
def Obligations.SnapWordFields : Prop :=
  ∀ s : State, s.snap.extractLsb' 0 16 = s.front ∧ s.snap.extractLsb' 16 16 = s.back

/-- 10 R31, and `count_o` of 10 R38. -/
def Obligations.UnreadCountIsModular : Prop :=
  ∀ s : State,
    s.unread = (s.back - s.front) &&& s.mask ∧ s.countOut = s.unread ∧
    (s.CursorInv →
      s.unread.toNat = (s.back.toNat + 2 ^ s.exp.toNat - s.front.toNat) % 2 ^ s.exp.toNat ∧
      s.unread.toNat ≤ s.mask.toNat ∧ s.mask.toNat = 2 ^ s.exp.toNat - 1)

/-- 10 R30, 41 R142: the reported capacity is 2^N, and 0 for N = 0. -/
def Obligations.ReportedCapacity : Prop :=
  ∀ s : State, s.CursorInv →
    (s.exp = 0 → s.capOut = 0) ∧ (s.exp ≠ 0 → s.capOut.toNat = 2 ^ s.exp.toNat)

/-- 10 R32 to R35: the free space does not underflow, the two comparators, and what they say of the unread count. -/
def Obligations.ComparatorsMeanTheCount : Prop :=
  ∀ s : State, s.CursorInv →
    s.free = s.mask - s.unread ∧ s.free.toNat + s.unread.toNat = s.mask.toNat ∧
    (s.empty = true ↔ s.front = s.back) ∧ (s.empty = true ↔ s.unread = 0) ∧
    (s.full = true ↔ s.unread = s.mask) ∧ (s.full = false ↔ s.unread < s.mask) ∧
    (s.mask = 0 → s.empty = true ∧ s.full = true) ∧ (s.mask ≠ 0 → ¬ (s.empty = true ∧ s.full = true))

/-! ## Reset and the invariants -/

/-- 70 R210 with the values of 10 R44: the reset edge, from every state and beside every command. -/
def Obligations.ResetEdgeValues : Prop :=
  ∀ (s : State) (e : Edge), e.rst = true →
    s.ready e.rst = false ∧
    ∃ t, edgeStep s e = .next t ∧ t.exp = 0 ∧ t.mask = 0 ∧ t.base = 0 ∧ t.front = 0 ∧ t.back = 0 ∧
      t.fault = false ∧ t.bound = false ∧ t.fatal = false ∧ t.errcode = .none ∧ t.errport = none ∧
      t.rspC = ⟨false, 0⟩ ∧ t.rspW = ⟨false, 0⟩ ∧ t.rspR = ⟨false, 0⟩ ∧ t.rspPayR = [] ∧ t.mem = s.mem

/-- 10 R44's derived values, at the state the model starts in. -/
def Obligations.ResetStateOutputs : Prop :=
  State.reset.capOut = 0 ∧ State.reset.countOut = 0 ∧ State.reset.empty = true ∧ State.reset.full = true ∧
  State.reset.status = 0x00000003 ∧ State.reset.snap = 0x00000000

/-- The invariant holds after reset, whatever ADDR_W is (10 R36, R44). -/
def Obligations.ResetMeetsInvariant : Prop :=
  ∀ w : Nat, 16 ≤ w →
    (State.resetWith w).Inv ∧ (State.resetWith w).UnreadWritten ∧ (State.resetWith w).Safe

/-- 10 R36: the invariants hold after reset, and every step keeps them. -/
def Obligations.CursorInvariantIsKept : Prop :=
  (∀ w, (State.resetWith w).CursorInv) ∧
  (∀ s t : State, s.CursorInv → step s = .next t → t.CursorInv) ∧
  (∀ s : State, s.CursorInv →
    s.mask.toNat = 2 ^ s.exp.toNat - 1 ∧ s.exp.toNat ≤ 16 ∧ s.front &&& ~~~s.mask = 0 ∧ s.back &&& ~~~s.mask = 0 ∧
    s.unread.toNat ≤ s.mask.toNat)

/-- Every step keeps the whole invariant: the cursors' (10 R36), the address width's and the storage list's form, and
the control registers' (10 R28, R29, R41). -/
def Obligations.StepKeepsInvariant : Prop :=
  ∀ s t : State, s.Inv → step s = .next t → t.Inv

/-- 10 R43: every unread slot holds a byte that was written, and every step keeps it so. -/
def Obligations.StepKeepsUnreadWritten : Prop :=
  ∀ s t : State, s.Inv → s.UnreadWritten → step s = .next t → t.UnreadWritten

/-- 10 R43: a pop answers bytes that were written, never the caller's (the model's free value). -/
def Obligations.PopsAnswerWrittenBytes : Prop :=
  ∀ s : State, s.Inv → s.UnreadWritten → s.fatal = false → s.bound = true →
    (s.front ≠ s.back → ∃ v t, exec .popb s = .next t ∧ s.mem.read (s.slot s.front) = some v ∧
      t.rspR = ⟨true, response 0 v true⟩) ∧
    (∀ len, ∃ t, exec (.popn len) s = .next t ∧ t.rspPayR.length = min len.toNat s.unread.toNat ∧
      ∀ j (hj : j < t.rspPayR.length), s.mem.read (s.slot (s.unreadIndex j)) = some t.rspPayR[j])

/-- 10 R43: two machines whose unread bytes agree, but whose other storage does not, cannot be told apart by any edge: the
registers and the responses are the same, and the unread bytes agree again. -/
def Obligations.HiddenStorageIsNotObservable : Prop :=
  ∀ (s t : State) (m : Mem) (e : Edge), s.Inv →
    (∀ j < s.unread.toNat, { s with mem := m }.readSlot (s.unreadIndex j) = s.readSlot (s.unreadIndex j)) →
    edgeStep s e = .next t →
    ∃ m', edgeStep { s with mem := m } e = .next { t with mem := m' } ∧
      ∀ j < t.unread.toNat, { t with mem := m' }.readSlot (t.unreadIndex j) = t.readSlot (t.unreadIndex j)

/-! ## The step -/

/-- 70 R222: a run of n edges is n steps, whatever the state and whatever is presented, and a port is not ready outside
reset only in FATAL. -/
def Obligations.EveryEdgeIsAStep : Prop :=
  (∀ (n : Nat) (s : State), ∃ t, Host.Core.run core n s = .next t ∧ t.inputs = s.inputs.drop n) ∧
  (∀ s : State, s.ready false = false ↔ s.fatal = true)

/-- When the words at an edge decode to one command alone, the step is `exec` of it on the state with that edge taken off
the pending inputs (20 R60). -/
def Obligations.StepRunsTheLoneCommand : Prop :=
  ∀ (s : State) (e : Edge) (rest : List Edge) (i : Instr),
    s.inputs = e :: rest → e.rst = false → decodeEdge e = .ok (alone i) → i.wellFormed = true →
      step s = exec i { s with inputs := rest }

/-- With nothing presented, or with the script at its end (the model's choice, log entry 2), a step only clears the
response registers (10 R41). -/
def Obligations.IdleEdgeOnlySilences : Prop :=
  (∀ s : State, s.inputs = [] → step s = .next (silent s)) ∧
  (∀ (s : State) (rest : List Edge), s.inputs = Edge.idle :: rest → step s = .next (silent { s with inputs := rest }))

/-- 20 R60, 40 R110: a BIND beside nothing or NOPs is performed. -/
def Obligations.BindEdgePerformsBind : Prop :=
  ∀ (s : State) (e : Edge) (d : Accepted) (n : Byte) (base : Nat),
    Commits s e d → d.c = some (.bind n base) →
      edgeStep s e = exec (.bind n base) s ∧ n.toNat ≤ 16 ∧ active d.w = false ∧ active d.r = false

/-- 20 R58, R60: at an edge without BIND, each port's command does what it does alone on the pre-edge state, and the two
parts are put together; FAULT and the flag a CHKF answers on R are the exception (see FaultIsSerialised). -/
def Obligations.EdgeCommitsBothRoles : Prop :=
  ∀ (s : State) (e : Edge) (d : Accepted), Commits s e d → binds d = false →
    ∃ sW sR t, execPort d.w s = .next sW ∧ execPort d.r s = .next sR ∧ edgeStep s e = .next t ∧
      t.back = sW.back ∧ t.mem = sW.mem ∧ t.rspW = sW.rspW ∧
      t.front = sR.front ∧ t.rspPayR = sR.rspPayR ∧ t.rspR.valid = sR.rspR.valid ∧
      (d.r ≠ some (.chkf .R) → d.r ≠ some .chkfClr → t.rspR = sR.rspR) ∧
      t = { silent s with
        back := t.back, mem := t.mem, rspW := t.rspW, front := t.front, rspPayR := t.rspPayR, rspR := t.rspR,
        fault := t.fault }

/-- 20 R62. -/
def Obligations.FaultIsSerialised : Prop :=
  ∀ (s : State) (e : Edge) (d : Accepted), Commits s e d → binds d = false →
    ∃ t, edgeStep s e = .next t ∧
      t.fault = faultSerial s.fault d.w (rejects s d.w) d.r ∧
      (d.w = some (.chkf .W) → t.rspW = ⟨true, response 0 0 s.fault⟩) ∧
      (d.r = some (.chkf .R) ∨ d.r = some .chkfClr →
        t.rspR = ⟨true, response 0 0 (faultAfterW s.fault d.w (rejects s d.w))⟩)

/-- 30 R81: a command presented while its port is not ready has no effect. -/
def Obligations.NotReadyAcceptsNothing : Prop :=
  ∀ (s : State) (e : Edge), s.ready e.rst = false → edgeStep s e = edgeStep s ⟨e.rst, none, none, none⟩

/-! ## Errors -/

/-- 60 R184: a fatal edge writes the error registers, clears the response valid bits, and changes nothing else. -/
def Obligations.FatalEntryWritesExactly : Prop :=
  ∀ (s : State) (e : Edge) (x : ErrCode) (p : Port),
    e.rst = false → s.fatal = false → firstError s e = some (x, p) →
      edgeStep s e = .next { silent s with fatal := true, errcode := x, errport := some p }

/-- 60 R182, R183: which error is recorded when several apply. -/
def Obligations.FirstErrorPriority : Prop :=
  ∀ (s : State) (e : Edge),
    (∀ x, decodeC e.c = .error x → firstError s e = some (x, .C)) ∧
    (∀ c x, decodeC e.c = .ok c → decodeW e.w = .error x → firstError s e = some (x, .W)) ∧
    (∀ c w x, decodeC e.c = .ok c → decodeW e.w = .ok w → decodeR e.r = .error x → firstError s e = some (x, .R)) ∧
    (∀ n b w r, decodeEdge e = .ok ⟨some (.bind n b), w, r⟩ →
      (active w = true → firstError s e = some (.bindConflict, .W)) ∧
      (active w = false → active r = true → firstError s e = some (.bindConflict, .R)) ∧
      (active w = false → active r = false → 16 < n.toNat → firstError s e = some (.badExponent, .C)) ∧
      (active w = false → active r = false → n.toNat ≤ 16 → firstError s e = none)) ∧
    (∀ d, decodeEdge e = .ok d → binds d = false →
      (s.bound = true → firstError s e = none) ∧
      (s.bound = false → active d.w = true → firstError s e = some (.unbound, .W)) ∧
      (s.bound = false → active d.w = false → active d.r = true → firstError s e = some (.unbound, .R)) ∧
      (s.bound = false → active d.w = false → active d.r = false → firstError s e = none))

/-- 60 R185. -/
def Obligations.FatalStateIsFrozen : Prop :=
  ∀ (s : State) (e : Edge), s.ControlInv → s.fatal = true → e.rst = false →
    s.ready e.rst = false ∧ edgeStep s e = .next s ∧
    s.rspC.valid = false ∧ s.rspW.valid = false ∧ s.rspR.valid = false ∧
    s.status.getLsbD 4 = true ∧ s.status.extractLsb' 8 3 = s.errcode.bits ∧
    s.status.extractLsb' 11 2 = Port.codeOrNone s.errport

/-- 60 R186: only a reset edge leaves FATAL, and it unbinds. -/
def Obligations.OnlyResetLeavesFatal : Prop :=
  ∀ (s t : State) (e : Edge), edgeStep s e = .next t → s.fatal = true → t.fatal = false →
    e.rst = true ∧ t.bound = false

/-- 10 R28, D6: every command but NOP and BIND is fatal while BOUND = 0, with the port it stands on. -/
def Obligations.UseBeforeBindingIsFatal : Prop :=
  ∀ (s : State) (i : Instr), s.fatal = false → s.bound = false → i.wellFormed = true → i.isNop = false →
    i.port ≠ .C → exec i s = .next { silent s with fatal := true, errcode := .unbound, errport := some i.port }

/-- 40 R111, 60 R181: BIND with N > 16 is BAD_EXPONENT on C and writes nothing else. -/
def Obligations.BadExponentIsFatal : Prop :=
  ∀ (s : State) (n : Byte) (base : Nat), s.fatal = false → 16 < n.toNat →
    exec (.bind n base) s = .next { silent s with fatal := true, errcode := .badExponent, errport := some .C }

/-! ## Who writes what -/

/-- 10 R37: BACK is written by PUSHB, PUSHN, BIND and reset alone, and FRONT by POPB, POPN, CHKF.CLR, BIND and reset;
BIND and reset write both; and the commands that write a cursor are WRONG_PORT on every port but their owner's. -/
def Obligations.CursorsHaveOneOwner : Prop :=
  (∀ (s t : State) (e : Edge), edgeStep s e = .next t →
    (e.rst = true → t.front = 0 ∧ t.back = 0) ∧
    (∀ d, Commits s e d → binds d = true → t.front = 0 ∧ t.back = 0) ∧
    (e.rst = false → t.back ≠ s.back → ∃ d, Commits s e d ∧
      (binds d = true ∨ (∃ v, d.w = some (.pushb v)) ∨ ∃ len pay, d.w = some (.pushn len pay))) ∧
    (e.rst = false → t.front ≠ s.front → ∃ d, Commits s e d ∧
      (binds d = true ∨ d.r = some .popb ∨ (∃ len, d.r = some (.popn len)) ∨ d.r = some .chkfClr))) ∧
  (∀ (p : Port) (w : Word) (addr : Nat) (pay : Payload (payLen w)) (k : Kind), kindOf w = some k →
    ((k = .pushb ∨ k = .pushn) ∧ p ≠ .W ∨ (k = .popb ∨ k = .popn ∨ k = .chkfClr) ∧ p ≠ .R) →
    decode p w addr pay = .error .wrongPort)

/-- 10 R27: FAULT is set by a rejected PUSHB alone, and cleared by CHKF, CHKF.CLR, BIND and reset alone. -/
def Obligations.FaultSetAndClearedBy : Prop :=
  ∀ (s t : State) (e : Edge), edgeStep s e = .next t → e.rst = false →
    (s.fault = false → t.fault = true → ∃ d v, Commits s e d ∧ d.w = some (.pushb v) ∧ ¬ s.unread < s.mask) ∧
    (s.fault = true → t.fault = false → ∃ d, Commits s e d ∧
      (binds d = true ∨ d.w = some (.chkf .W) ∨ d.r = some (.chkf .R) ∨ d.r = some .chkfClr))

/-- 10 R22 to R24, R28, R29 and 00 R9: outside reset, EXP, MASK, BASE and BOUND change only by a BIND, the error registers
only by fatal entry, and ADDR_W never. -/
def Obligations.BindingAndErrorOwners : Prop :=
  ∀ (s t : State) (e : Edge), edgeStep s e = .next t →
    t.addrW = s.addrW ∧
    (e.rst = false →
      ((t.exp ≠ s.exp ∨ t.mask ≠ s.mask ∨ t.base ≠ s.base ∨ t.bound ≠ s.bound) →
        t.bound = true ∧ ∃ d, Commits s e d ∧ binds d = true) ∧
      ((t.fatal ≠ s.fatal ∨ t.errcode ≠ s.errcode ∨ t.errport ≠ s.errport) →
        t.fatal = true ∧ s.fatal = false ∧ ∃ x p, firstError s e = some (x, p) ∧ t.errcode = x ∧ t.errport = some p))

/-- 20 R57, R63: an edge writes storage only in the free slots of the bound region. -/
def Obligations.StorageWrittenOnlyInFreeSlots : Prop :=
  ∀ (s t : State) (e : Edge) (a : Nat), s.CursorInv → edgeStep s e = .next t →
    (∀ j < s.free.toNat, a ≠ s.slot (s.advance s.back j)) → t.readByte a = s.readByte a

/-- 20 R63. The addresses an edge writes are the slots from BACK on, as many as its W command stores, and the answers of its
R command depend on no storage but the slots from FRONT on, as many as it reads; the first are free ones and the second
unread ones, so no slot is both, and one slot is never either. -/
def Obligations.WrittenAndReadSlotsAreDisjoint : Prop :=
  ∀ s : State, s.Inv →
    (∀ (e : Edge) (d : Accepted) (t : State), Commits s e d → binds d = false → edgeStep s e = .next t →
      (∀ j < storedCount s d.w,
        t.mem.read (s.slot (s.advance s.back j)) = (queuePushed s.mask.toNat s.queue d.w)[j]?) ∧
      (queuePushed s.mask.toNat s.queue d.w).length = storedCount s d.w ∧
      (∀ a, (∀ j < storedCount s d.w, a ≠ s.slot (s.advance s.back j)) → t.mem.read a = s.mem.read a) ∧
      (∀ m : Mem,
        (∀ j < readCount s d.r,
          { s with mem := m }.readSlot (s.advance s.front j) = s.readSlot (s.advance s.front j)) →
        ∃ m', edgeStep { s with mem := m } e = .next { t with mem := m' }) ∧
      (∀ i j, i < storedCount s d.w → j < readCount s d.r →
        s.slot (s.advance s.back i) ≠ s.slot (s.advance s.front j))) ∧
    (∀ w, storedCount s w ≤ s.free.toNat) ∧ (∀ r, readCount s r ≤ s.unread.toNat) ∧
    (∀ i j, i < s.free.toNat → j < s.unread.toNat → s.slot (s.advance s.back i) ≠ s.slot (s.advance s.front j)) ∧
    s.free.toNat + s.unread.toNat = s.mask.toNat ∧
    (∀ i < s.free.toNat, s.slot (s.advance s.back i) ≠ s.slot ((s.front - 1) &&& s.mask)) ∧
    (∀ j < s.unread.toNat, s.slot (s.advance s.front j) ≠ s.slot ((s.front - 1) &&& s.mask))

/-! ## The commands, each alone at an edge -/

/-- 40 R110. -/
def Obligations.NopCompletes : Prop :=
  ∀ (p : Port) (s : State), exec (.nop p) s = .next (silent s)

/-- 40 R111, R113: BIND's registers and response; the storage keeps its bytes. That the operand is cut to ADDR_W bits is the
model's reading (log entry 1). -/
def Obligations.BindCompletes : Prop :=
  ∀ (n : Byte) (base : Nat) (s : State), s.fatal = false → n.toNat ≤ 16 →
    exec (.bind n base) s = .next
      { silent s with
        exp := n.setWidth 5
        mask := BitVec.ofNat 16 (2 ^ n.toNat - 1)
        base := base % 2 ^ s.addrW
        front := 0
        back := 0
        fault := false
        bound := true
        rspC := ⟨true, response (BitVec.ofNat 16 (2 ^ n.toNat - 1)) 0 true⟩ }

/-- 40 R112: BIND 0 binds the buffer of EXP 0, and what that buffer does. That BIND cuts its operand to ADDR_W bits (log
entry 1) and that an empty POPB loads an empty payload (log entry 6) are the model's readings. -/
def Obligations.ZeroCapacityBuffer : Prop :=
  (∀ (base : Nat) (s : State), s.fatal = false → ∃ t, exec (.bind 0 base) s = .next t ∧
    t.exp = 0 ∧ t.mask = 0 ∧ t.capOut = 0 ∧ t.bound = true ∧ t.base = base % 2 ^ s.addrW) ∧
  (∀ s : State, s.CursorInv → s.fatal = false → s.bound = true → s.exp = 0 →
    s.mask = 0 ∧ s.capOut = 0 ∧ s.empty = true ∧ s.full = true ∧
    (∀ v, exec (.pushb v) s = .next { silent s with fault := true, rspW := ⟨true, response 0 0 false⟩ }) ∧
    (∀ len pay, exec (.pushn len pay) s = .next { silent s with rspW := ⟨true, response 0 0 false⟩ }) ∧
    exec .popb s = .next { silent s with rspR := ⟨true, response 0 0 false⟩, rspPayR := [] } ∧
    (∀ len, exec (.popn len) s = .next { silent s with rspR := ⟨true, response 0 0 false⟩, rspPayR := [] }))

/-- 40 R114: COUNT answers UNREAD on its own port and changes nothing. That its response on R loads an empty payload is the
model's reading (log entry 6). -/
def Obligations.CountCompletes : Prop :=
  ∀ s : State, s.fatal = false → s.bound = true →
    exec (.count .W) s = .next { silent s with rspW := ⟨true, response s.unread 0 false⟩ } ∧
    exec (.count .R) s = .next { silent s with rspR := ⟨true, response s.unread 0 false⟩, rspPayR := [] }

/-- 41 R140: PUSHB, accepted and rejected. -/
def Obligations.PushbCompletes : Prop :=
  ∀ (v : Byte) (s : State), s.fatal = false → s.bound = true →
    (s.unread < s.mask → exec (.pushb v) s = .next
      { silent s with
        mem := s.mem.write ((s.base + s.back.toNat) % 2 ^ s.addrW) v
        back := (s.back + 1) &&& s.mask
        rspW := ⟨true, response 0 0 true⟩ }) ∧
    (¬ s.unread < s.mask → exec (.pushb v) s = .next
      { silent s with fault := true, rspW := ⟨true, response 0 0 false⟩ })

/-- 42 R160, R161: PUSHN stores the first min(LEN, FREE) bytes at the slots from BACK on, around the ring, and changes
nothing else. -/
def Obligations.PushnCompletes : Prop :=
  ∀ (len : Cursor) (pay : Payload len.toNat) (s : State), s.Inv → s.fatal = false → s.bound = true →
    ∃ m, exec (.pushn len pay) s = .next
        { silent s with
          mem := m
          back := s.advance s.back (min len.toNat s.free.toNat)
          rspW := ⟨true, response (BitVec.ofNat 16 (min len.toNat s.free.toNat)) 0 false⟩ } ∧
      m.wf = true ∧
      (∀ j (hj : j < pay.bytes.length), j < min len.toNat s.free.toNat →
        m.read (s.slot (s.advance s.back j)) = some pay.bytes[j]) ∧
      (∀ a, (∀ j < min len.toNat s.free.toNat, a ≠ s.slot (s.advance s.back j)) → m.read a = s.mem.read a)

/-- 41 R141: POPB, with a byte and without. That its response loads an empty payload is the model's reading (log entry 6). -/
def Obligations.PopbCompletes : Prop :=
  ∀ s : State, s.fatal = false → s.bound = true →
    (s.front ≠ s.back → exec .popb s = .next
      { silent s with
        front := (s.front + 1) &&& s.mask
        rspR := ⟨true, response 0 (s.readByte ((s.base + s.front.toNat) % 2 ^ s.addrW)) true⟩
        rspPayR := [] }) ∧
    (s.front = s.back → exec .popb s = .next
      { silent s with rspR := ⟨true, response 0 0 false⟩, rspPayR := [] })

/-- 42 R160, R162: POPN answers the min(LEN, UNREAD) oldest bytes, from the slots from FRONT on, around the ring. -/
def Obligations.PopnCompletes : Prop :=
  ∀ (len : Cursor) (s : State), s.CursorInv → s.fatal = false → s.bound = true →
    exec (.popn len) s = .next
      { silent s with
        front := s.advance s.front (min len.toNat s.unread.toNat)
        rspR := ⟨true, response (BitVec.ofNat 16 (min len.toNat s.unread.toNat)) 0 false⟩
        rspPayR := (List.range (min len.toNat s.unread.toNat)).map fun j => s.readSlot (s.advance s.front j) }

/-- 40 R115: CHKF answers FAULT on its own port and clears it. That its response on R loads an empty payload is the model's
reading (log entry 6). -/
def Obligations.ChkfCompletes : Prop :=
  ∀ s : State, s.fatal = false → s.bound = true →
    exec (.chkf .W) s = .next { silent s with fault := false, rspW := ⟨true, response 0 0 s.fault⟩ } ∧
    exec (.chkf .R) s = .next { silent s with fault := false, rspR := ⟨true, response 0 0 s.fault⟩, rspPayR := [] }

/-- 40 R116: CHKF.CLR drops all unread data, answers FAULT and clears it. That its response loads an empty payload is the
model's reading (log entry 6). -/
def Obligations.ChkfClrCompletes : Prop :=
  ∀ s : State, s.fatal = false → s.bound = true →
    exec .chkfClr s = .next
      { silent s with front := s.back, fault := false, rspR := ⟨true, response 0 0 s.fault⟩, rspPayR := [] }

/-- What every command leaves unchanged when it is in no error: a W command (NOP, COUNT, PUSHB, PUSHN, CHKF) everything but
BACK, FAULT, the storage and W's response; of these PUSHB and PUSHN alone write BACK and the storage, at the slots from
BACK on, and PUSHB and CHKF alone FAULT (10 R27, R37, 42 R165). -/
def Obligations.WriterCommandFrame : Prop :=
  ∀ (i : Instr) (s t : State), s.CursorInv → i.port = .W → s.fatal = false → aloneError s i = none →
    exec i s = .next t →
      t = { silent s with back := t.back, fault := t.fault, mem := t.mem, rspW := t.rspW } ∧
      ((∀ v, i ≠ .pushb v) → (∀ len pay, i ≠ .pushn len pay) → t.back = s.back ∧ t.mem = s.mem) ∧
      ((∀ v, i ≠ .pushb v) → i ≠ .chkf .W → t.fault = s.fault) ∧
      (∀ v, i = .pushb v → ∀ a, a ≠ s.slot s.back → t.readByte a = s.readByte a) ∧
      (∀ len pay, i = .pushn len pay → ∀ a, (∀ j < clamp len s.free, a ≠ s.slot (s.advance s.back j)) →
        t.readByte a = s.readByte a)

/-- The same of an R command (NOP, COUNT, POPB, POPN, CHKF, CHKF.CLR): everything but FRONT, FAULT and R's response is
unchanged, all of the storage among it; POPB, POPN and CHKF.CLR alone write FRONT, and CHKF and CHKF.CLR alone FAULT. -/
def Obligations.ReaderCommandFrame : Prop :=
  ∀ (i : Instr) (s t : State), i.port = .R → s.fatal = false → aloneError s i = none → exec i s = .next t →
    t = { silent s with front := t.front, fault := t.fault, rspR := t.rspR, rspPayR := t.rspPayR } ∧
    (i ≠ .popb → (∀ len, i ≠ .popn len) → i ≠ .chkfClr → t.front = s.front) ∧
    (i ≠ .chkf .R → i ≠ .chkfClr → t.fault = s.fault) ∧
    (∀ a, t.readByte a = s.readByte a)

/-- 42 R164. -/
def Obligations.BulkTransfersAreClamped : Prop :=
  ∀ (s : State) (len : Cursor) (pay : Payload len.toNat), s.Inv → s.fatal = false → s.bound = true →
    (s.free < len → ∃ t, exec (.pushn len pay) s = .next t ∧ t.rspW = ⟨true, response s.free 0 false⟩ ∧
      t.unread = s.mask ∧ t.queue = s.queue ++ pay.bytes.take s.free.toNat) ∧
    (s.unread < len → ∃ t, exec (.popn len) s = .next t ∧ t.rspR = ⟨true, response s.unread 0 false⟩ ∧
      t.unread = 0 ∧ t.rspPayR = s.queue)

/-- 42 R165, 10 R27: a rejected PUSHB sets FAULT; a PUSHN leaves FAULT as it was, clamped or not, in every state; and no
command but PUSHB sets it. -/
def Obligations.OnlyPushbSetsFault : Prop :=
  (∀ (s : State) (v : Byte), s.fatal = false → s.bound = true → ¬ s.unread < s.mask →
    ∃ t, exec (.pushb v) s = .next t ∧ t.fault = true) ∧
  (∀ (s : State) (len : Cursor) (pay : Payload len.toNat),
    ∃ t, exec (.pushn len pay) s = .next t ∧ t.fault = s.fault) ∧
  (∀ (s : State) (i : Instr), (∀ v, i ≠ .pushb v) →
    ∃ t, exec i s = .next t ∧ (t.fault = true → s.fault = true))

/-! ## Several commands and several edges -/

/-- 20 R64: every edge without BIND gives the registers, the storage and the responses of its W and its R command one after
the other, in each order the table allows, a PUSHN's LEN cut to the count it returned. What R's payload register holds beside a response without
payload, or without a response, is read as log entry 6 says. -/
def Obligations.EdgeIsSequential : Prop :=
  ∀ (s : State) (e : Edge) (d : Accepted) (wFirst : Bool),
    s.Inv → Commits s e d → binds d = false → orderAllowed s d.w d.r wFirst = true →
    ∃ t m u, edgeStep s e = .next t ∧
      (if wFirst then execPort (cutToResult s d.w) s = .next m ∧ execPort d.r m = .next u
        else execPort d.r s = .next m ∧ execPort (cutToResult s d.w) m = .next u) ∧
      t = { u with rspW := if wFirst then m.rspW else u.rspW, rspR := if wFirst then u.rspR else m.rspR }

/-- 42 R163: a bulk transfer of n bytes is n single-byte transfers, but for FAULT, which it does not touch. -/
def Obligations.BulkIsRepeatedBytes : Prop :=
  ∀ (s : State), s.Inv → s.fatal = false → s.bound = true →
    (∀ (len : Cursor) (pay : Payload len.toNat), ∃ t u, exec (.pushn len pay) s = .next t ∧
      pushEach (pay.bytes.take (min len.toNat s.free.toNat)) s = some u ∧
      t.back = u.back ∧ t.mem = u.mem ∧ t.fault = s.fault ∧
      t.rspW.word = response (BitVec.ofNat 16 (min len.toNat s.free.toNat)) 0 false) ∧
    (∀ len : Cursor, ∃ t u bs, exec (.popn len) s = .next t ∧
      popEach (min len.toNat s.unread.toNat) s = some (bs, u) ∧
      t.front = u.front ∧ t.mem = u.mem ∧ t.rspPayR = bs ∧ t.fault = s.fault ∧
      t.rspR.word = response (BitVec.ofNat 16 (min len.toNat s.unread.toNat)) 0 false)

/-- 41 R143, 42 R166: what every edge makes of the controller's queue. An edge that commits without BIND takes from it what
the R command removed, puts behind it what the W command added, and answers a pop with the oldest bytes; a BIND and a
reset empty it; an edge in error and an edge in FATAL leave it. That a POPB loads an empty payload is the model's reading
(log entry 6). -/
def Obligations.EdgeRefinesTheQueue : Prop :=
  ∀ (s : State) (e : Edge), s.Inv →
    ∃ t, edgeStep s e = .next t ∧
      (∀ d, Commits s e d → binds d = false →
        t.queue = s.queue.drop (queueRemoved s.queue d.r) ++ queuePushed s.mask.toNat s.queue d.w ∧
        popAnswers s.queue d.r t) ∧
      (∀ d, Commits s e d → binds d = true → t.queue = []) ∧
      (e.rst = true → t.queue = []) ∧
      (e.rst = false → (s.fatal = true ∨ firstError s e ≠ none) → t.queue = s.queue)

/-- 41 R142: from empty, with PUSHBs on W alone, exactly 2^N - 1 are accepted before one is rejected. -/
def Obligations.UsableCapacityIsReached : Prop :=
  ∀ (s : State) (bytes : List Byte) (k : Nat), s.Inv → s.fatal = false → s.bound = true → s.exp ≠ 0 →
    s.front = s.back → s.inputs = bytes.map (fun b => Edge.ofInstr (.pushb b)) → bytes.length = 2 ^ s.exp.toNat →
    s.capOut.toNat = 2 ^ s.exp.toNat ∧
    (0 < k → k < 2 ^ s.exp.toNat → ∃ t, Host.Core.run core k s = .next t ∧
      t.rspW = ⟨true, response 0 0 true⟩ ∧ t.queue = bytes.take k ∧ t.fault = s.fault) ∧
    (∃ t, Host.Core.run core (2 ^ s.exp.toNat) s = .next t ∧
      t.rspW = ⟨true, response 0 0 false⟩ ∧ t.queue = bytes.take (2 ^ s.exp.toNat - 1) ∧ t.fault = true)

/-- 40 R117: a rejected push is answered by the next CHKF and by no second one. -/
def Obligations.OverflowIsReportedOnce : Prop :=
  ∀ (s : State) (v : Byte) (p q : Port) (rest : List Edge), s.fatal = false → s.bound = true →
    ¬ s.unread < s.mask → p ≠ .C → q ≠ .C →
    s.inputs = Edge.ofInstr (.pushb v) :: Edge.ofInstr (.chkf p) :: Edge.ofInstr (.chkf q) :: rest →
    ∃ t1 t2 t3, Host.Core.run core 1 s = .next t1 ∧ t1.rspW = ⟨true, response 0 0 false⟩ ∧ t1.fault = true ∧
      Host.Core.run core 2 s = .next t2 ∧ (if p = .W then t2.rspW else t2.rspR) = ⟨true, response 0 0 true⟩ ∧
      t2.fault = false ∧
      Host.Core.run core 3 s = .next t3 ∧ (if q = .W then t3.rspW else t3.rspR) = ⟨true, response 0 0 false⟩ ∧
      t3.fault = false

/-- 40 R118: after a CHKF.CLR exactly the bytes stored at its own edge are unread. -/
def Obligations.ClearLeavesSameEdgePush : Prop :=
  ∀ (s : State) (e : Edge) (d : Accepted), s.Inv → Commits s e d → d.r = some .chkfClr →
    ∃ t, edgeStep s e = .next t ∧ t.front = s.back ∧ t.unread.toNat = storedCount s d.w ∧
      t.queue = queuePushed s.mask.toNat s.queue d.w

/-- 20 R56: a byte written is read until the next write of its address. -/
def Obligations.StorageReadAfterWrite : Prop :=
  ∀ (s : State) (a b : Nat) (v : Byte),
    (s.writeByte a v).readByte a = v ∧ (b ≠ a → (s.writeByte a v).readByte b = s.readByte b)
end

