-- ==== Sys2Proof/Laws/State.lean ====
section
/-!
SUPPORT. What each update of the state leaves in each field: one lemma per field per update.
-/

namespace Sys2Proof.Machine

/-! ### `writeByte` and `writeSlot` -/

@[simp] theorem writeByte_addrW (s : State) (a : Nat) (v : Byte) : (s.writeByte a v).addrW = s.addrW := rfl
@[simp] theorem writeSlot_addrW (s : State) (i : Cursor) (v : Byte) : (s.writeSlot i v).addrW = s.addrW := rfl
@[simp] theorem writeByte_exp (s : State) (a : Nat) (v : Byte) : (s.writeByte a v).exp = s.exp := rfl
@[simp] theorem writeSlot_exp (s : State) (i : Cursor) (v : Byte) : (s.writeSlot i v).exp = s.exp := rfl
@[simp] theorem writeByte_mask (s : State) (a : Nat) (v : Byte) : (s.writeByte a v).mask = s.mask := rfl
@[simp] theorem writeSlot_mask (s : State) (i : Cursor) (v : Byte) : (s.writeSlot i v).mask = s.mask := rfl
@[simp] theorem writeByte_base (s : State) (a : Nat) (v : Byte) : (s.writeByte a v).base = s.base := rfl
@[simp] theorem writeSlot_base (s : State) (i : Cursor) (v : Byte) : (s.writeSlot i v).base = s.base := rfl
@[simp] theorem writeByte_front (s : State) (a : Nat) (v : Byte) : (s.writeByte a v).front = s.front := rfl
@[simp] theorem writeSlot_front (s : State) (i : Cursor) (v : Byte) : (s.writeSlot i v).front = s.front := rfl
@[simp] theorem writeByte_back (s : State) (a : Nat) (v : Byte) : (s.writeByte a v).back = s.back := rfl
@[simp] theorem writeSlot_back (s : State) (i : Cursor) (v : Byte) : (s.writeSlot i v).back = s.back := rfl
@[simp] theorem writeByte_fault (s : State) (a : Nat) (v : Byte) : (s.writeByte a v).fault = s.fault := rfl
@[simp] theorem writeSlot_fault (s : State) (i : Cursor) (v : Byte) : (s.writeSlot i v).fault = s.fault := rfl
@[simp] theorem writeByte_bound (s : State) (a : Nat) (v : Byte) : (s.writeByte a v).bound = s.bound := rfl
@[simp] theorem writeSlot_bound (s : State) (i : Cursor) (v : Byte) : (s.writeSlot i v).bound = s.bound := rfl
@[simp] theorem writeByte_fatal (s : State) (a : Nat) (v : Byte) : (s.writeByte a v).fatal = s.fatal := rfl
@[simp] theorem writeSlot_fatal (s : State) (i : Cursor) (v : Byte) : (s.writeSlot i v).fatal = s.fatal := rfl
@[simp] theorem writeByte_errcode (s : State) (a : Nat) (v : Byte) : (s.writeByte a v).errcode = s.errcode := rfl
@[simp] theorem writeSlot_errcode (s : State) (i : Cursor) (v : Byte) : (s.writeSlot i v).errcode = s.errcode := rfl
@[simp] theorem writeByte_errport (s : State) (a : Nat) (v : Byte) : (s.writeByte a v).errport = s.errport := rfl
@[simp] theorem writeSlot_errport (s : State) (i : Cursor) (v : Byte) : (s.writeSlot i v).errport = s.errport := rfl
@[simp] theorem writeByte_rspC (s : State) (a : Nat) (v : Byte) : (s.writeByte a v).rspC = s.rspC := rfl
@[simp] theorem writeSlot_rspC (s : State) (i : Cursor) (v : Byte) : (s.writeSlot i v).rspC = s.rspC := rfl
@[simp] theorem writeByte_rspW (s : State) (a : Nat) (v : Byte) : (s.writeByte a v).rspW = s.rspW := rfl
@[simp] theorem writeSlot_rspW (s : State) (i : Cursor) (v : Byte) : (s.writeSlot i v).rspW = s.rspW := rfl
@[simp] theorem writeByte_rspR (s : State) (a : Nat) (v : Byte) : (s.writeByte a v).rspR = s.rspR := rfl
@[simp] theorem writeSlot_rspR (s : State) (i : Cursor) (v : Byte) : (s.writeSlot i v).rspR = s.rspR := rfl
@[simp] theorem writeByte_rspPayR (s : State) (a : Nat) (v : Byte) : (s.writeByte a v).rspPayR = s.rspPayR := rfl
@[simp] theorem writeSlot_rspPayR (s : State) (i : Cursor) (v : Byte) : (s.writeSlot i v).rspPayR = s.rspPayR := rfl
@[simp] theorem writeByte_mem (s : State) (a : Nat) (v : Byte) : (s.writeByte a v).mem = s.mem.write a v := rfl
@[simp] theorem writeSlot_mem (s : State) (i : Cursor) (v : Byte) : (s.writeSlot i v).mem = s.mem.write (s.slot i) v := rfl
@[simp] theorem writeByte_inputs (s : State) (a : Nat) (v : Byte) : (s.writeByte a v).inputs = s.inputs := rfl
@[simp] theorem writeSlot_inputs (s : State) (i : Cursor) (v : Byte) : (s.writeSlot i v).inputs = s.inputs := rfl

/-! ### `quiet` -/

@[simp] theorem quiet_addrW (s : State) : s.quiet.addrW = s.addrW := rfl
@[simp] theorem quiet_exp (s : State) : s.quiet.exp = s.exp := rfl
@[simp] theorem quiet_mask (s : State) : s.quiet.mask = s.mask := rfl
@[simp] theorem quiet_base (s : State) : s.quiet.base = s.base := rfl
@[simp] theorem quiet_front (s : State) : s.quiet.front = s.front := rfl
@[simp] theorem quiet_back (s : State) : s.quiet.back = s.back := rfl
@[simp] theorem quiet_fault (s : State) : s.quiet.fault = s.fault := rfl
@[simp] theorem quiet_bound (s : State) : s.quiet.bound = s.bound := rfl
@[simp] theorem quiet_fatal (s : State) : s.quiet.fatal = s.fatal := rfl
@[simp] theorem quiet_errcode (s : State) : s.quiet.errcode = s.errcode := rfl
@[simp] theorem quiet_errport (s : State) : s.quiet.errport = s.errport := rfl
@[simp] theorem quiet_rspC_valid (s : State) : s.quiet.rspC.valid = false := rfl
@[simp] theorem quiet_rspC_word (s : State) : s.quiet.rspC.word = s.rspC.word := rfl
@[simp] theorem quiet_rspW_valid (s : State) : s.quiet.rspW.valid = false := rfl
@[simp] theorem quiet_rspW_word (s : State) : s.quiet.rspW.word = s.rspW.word := rfl
@[simp] theorem quiet_rspR_valid (s : State) : s.quiet.rspR.valid = false := rfl
@[simp] theorem quiet_rspR_word (s : State) : s.quiet.rspR.word = s.rspR.word := rfl
@[simp] theorem quiet_rspPayR (s : State) : s.quiet.rspPayR = s.rspPayR := rfl
@[simp] theorem quiet_mem (s : State) : s.quiet.mem = s.mem := rfl
@[simp] theorem quiet_inputs (s : State) : s.quiet.inputs = s.inputs := rfl
@[simp] theorem quiet_quiet (s : State) : s.quiet.quiet = s.quiet := rfl

/-! ### `respond` -/

@[simp] theorem respond_addrW (s : State) (p : Port) (w : Word) (pay : List Byte) : (s.respond p w pay).addrW = s.addrW := by cases p <;> rfl
@[simp] theorem respond_exp (s : State) (p : Port) (w : Word) (pay : List Byte) : (s.respond p w pay).exp = s.exp := by cases p <;> rfl
@[simp] theorem respond_mask (s : State) (p : Port) (w : Word) (pay : List Byte) : (s.respond p w pay).mask = s.mask := by cases p <;> rfl
@[simp] theorem respond_base (s : State) (p : Port) (w : Word) (pay : List Byte) : (s.respond p w pay).base = s.base := by cases p <;> rfl
@[simp] theorem respond_front (s : State) (p : Port) (w : Word) (pay : List Byte) : (s.respond p w pay).front = s.front := by cases p <;> rfl
@[simp] theorem respond_back (s : State) (p : Port) (w : Word) (pay : List Byte) : (s.respond p w pay).back = s.back := by cases p <;> rfl
@[simp] theorem respond_fault (s : State) (p : Port) (w : Word) (pay : List Byte) : (s.respond p w pay).fault = s.fault := by cases p <;> rfl
@[simp] theorem respond_bound (s : State) (p : Port) (w : Word) (pay : List Byte) : (s.respond p w pay).bound = s.bound := by cases p <;> rfl
@[simp] theorem respond_fatal (s : State) (p : Port) (w : Word) (pay : List Byte) : (s.respond p w pay).fatal = s.fatal := by cases p <;> rfl
@[simp] theorem respond_errcode (s : State) (p : Port) (w : Word) (pay : List Byte) : (s.respond p w pay).errcode = s.errcode := by cases p <;> rfl
@[simp] theorem respond_errport (s : State) (p : Port) (w : Word) (pay : List Byte) : (s.respond p w pay).errport = s.errport := by cases p <;> rfl
@[simp] theorem respond_C_rspC (s : State) (w : Word) (pay : List Byte) : (s.respond .C w pay).rspC = ⟨true, w⟩ := rfl
@[simp] theorem respond_W_rspC (s : State) (w : Word) (pay : List Byte) : (s.respond .W w pay).rspC = s.rspC := rfl
@[simp] theorem respond_R_rspC (s : State) (w : Word) (pay : List Byte) : (s.respond .R w pay).rspC = s.rspC := rfl
@[simp] theorem respond_C_rspW (s : State) (w : Word) (pay : List Byte) : (s.respond .C w pay).rspW = s.rspW := rfl
@[simp] theorem respond_W_rspW (s : State) (w : Word) (pay : List Byte) : (s.respond .W w pay).rspW = ⟨true, w⟩ := rfl
@[simp] theorem respond_R_rspW (s : State) (w : Word) (pay : List Byte) : (s.respond .R w pay).rspW = s.rspW := rfl
@[simp] theorem respond_C_rspR (s : State) (w : Word) (pay : List Byte) : (s.respond .C w pay).rspR = s.rspR := rfl
@[simp] theorem respond_W_rspR (s : State) (w : Word) (pay : List Byte) : (s.respond .W w pay).rspR = s.rspR := rfl
@[simp] theorem respond_R_rspR (s : State) (w : Word) (pay : List Byte) : (s.respond .R w pay).rspR = ⟨true, w⟩ := rfl
@[simp] theorem respond_C_rspPayR (s : State) (w : Word) (pay : List Byte) : (s.respond .C w pay).rspPayR = s.rspPayR := rfl
@[simp] theorem respond_W_rspPayR (s : State) (w : Word) (pay : List Byte) : (s.respond .W w pay).rspPayR = s.rspPayR := rfl
@[simp] theorem respond_R_rspPayR (s : State) (w : Word) (pay : List Byte) : (s.respond .R w pay).rspPayR = pay := rfl
@[simp] theorem respond_mem (s : State) (p : Port) (w : Word) (pay : List Byte) : (s.respond p w pay).mem = s.mem := by cases p <;> rfl
@[simp] theorem respond_inputs (s : State) (p : Port) (w : Word) (pay : List Byte) : (s.respond p w pay).inputs = s.inputs := by cases p <;> rfl

/-! ### `fatalEntry` -/

@[simp] theorem fatalEntry_addrW (s : State) (e : ErrCode) (p : Port) : (s.fatalEntry e p).addrW = s.addrW := rfl
@[simp] theorem fatalEntry_exp (s : State) (e : ErrCode) (p : Port) : (s.fatalEntry e p).exp = s.exp := rfl
@[simp] theorem fatalEntry_mask (s : State) (e : ErrCode) (p : Port) : (s.fatalEntry e p).mask = s.mask := rfl
@[simp] theorem fatalEntry_base (s : State) (e : ErrCode) (p : Port) : (s.fatalEntry e p).base = s.base := rfl
@[simp] theorem fatalEntry_front (s : State) (e : ErrCode) (p : Port) : (s.fatalEntry e p).front = s.front := rfl
@[simp] theorem fatalEntry_back (s : State) (e : ErrCode) (p : Port) : (s.fatalEntry e p).back = s.back := rfl
@[simp] theorem fatalEntry_fault (s : State) (e : ErrCode) (p : Port) : (s.fatalEntry e p).fault = s.fault := rfl
@[simp] theorem fatalEntry_bound (s : State) (e : ErrCode) (p : Port) : (s.fatalEntry e p).bound = s.bound := rfl
@[simp] theorem fatalEntry_fatal (s : State) (e : ErrCode) (p : Port) : (s.fatalEntry e p).fatal = true := rfl
@[simp] theorem fatalEntry_errcode (s : State) (e : ErrCode) (p : Port) : (s.fatalEntry e p).errcode = e := rfl
@[simp] theorem fatalEntry_errport (s : State) (e : ErrCode) (p : Port) : (s.fatalEntry e p).errport = some p := rfl
@[simp] theorem fatalEntry_rspC (s : State) (e : ErrCode) (p : Port) : (s.fatalEntry e p).rspC = s.quiet.rspC := rfl
@[simp] theorem fatalEntry_rspW (s : State) (e : ErrCode) (p : Port) : (s.fatalEntry e p).rspW = s.quiet.rspW := rfl
@[simp] theorem fatalEntry_rspR (s : State) (e : ErrCode) (p : Port) : (s.fatalEntry e p).rspR = s.quiet.rspR := rfl
@[simp] theorem fatalEntry_rspPayR (s : State) (e : ErrCode) (p : Port) : (s.fatalEntry e p).rspPayR = s.rspPayR := rfl
@[simp] theorem fatalEntry_mem (s : State) (e : ErrCode) (p : Port) : (s.fatalEntry e p).mem = s.mem := rfl
@[simp] theorem fatalEntry_inputs (s : State) (e : ErrCode) (p : Port) : (s.fatalEntry e p).inputs = s.inputs := rfl

/-! ### `resetEdge` -/

@[simp] theorem resetEdge_addrW (s : State) : s.resetEdge.addrW = s.addrW := rfl
@[simp] theorem resetEdge_exp (s : State) : s.resetEdge.exp = 0 := rfl
@[simp] theorem resetEdge_mask (s : State) : s.resetEdge.mask = 0 := rfl
@[simp] theorem resetEdge_base (s : State) : s.resetEdge.base = 0 := rfl
@[simp] theorem resetEdge_front (s : State) : s.resetEdge.front = 0 := rfl
@[simp] theorem resetEdge_back (s : State) : s.resetEdge.back = 0 := rfl
@[simp] theorem resetEdge_fault (s : State) : s.resetEdge.fault = false := rfl
@[simp] theorem resetEdge_bound (s : State) : s.resetEdge.bound = false := rfl
@[simp] theorem resetEdge_fatal (s : State) : s.resetEdge.fatal = false := rfl
@[simp] theorem resetEdge_errcode (s : State) : s.resetEdge.errcode = .none := rfl
@[simp] theorem resetEdge_errport (s : State) : s.resetEdge.errport = none := rfl
@[simp] theorem resetEdge_rspC (s : State) : s.resetEdge.rspC = Rsp.reset := rfl
@[simp] theorem resetEdge_rspW (s : State) : s.resetEdge.rspW = Rsp.reset := rfl
@[simp] theorem resetEdge_rspR (s : State) : s.resetEdge.rspR = Rsp.reset := rfl
@[simp] theorem resetEdge_rspPayR (s : State) : s.resetEdge.rspPayR = [] := rfl
@[simp] theorem resetEdge_mem (s : State) : s.resetEdge.mem = s.mem := rfl
@[simp] theorem resetEdge_inputs (s : State) : s.resetEdge.inputs = s.inputs := rfl

/-! ### `mergePorts` -/

@[simp] theorem mergePorts_addrW (s sW sR : State) : (mergePorts s sW sR).addrW = s.addrW := rfl
@[simp] theorem mergePorts_exp (s sW sR : State) : (mergePorts s sW sR).exp = s.exp := rfl
@[simp] theorem mergePorts_mask (s sW sR : State) : (mergePorts s sW sR).mask = s.mask := rfl
@[simp] theorem mergePorts_base (s sW sR : State) : (mergePorts s sW sR).base = s.base := rfl
@[simp] theorem mergePorts_front (s sW sR : State) : (mergePorts s sW sR).front = sR.front := rfl
@[simp] theorem mergePorts_back (s sW sR : State) : (mergePorts s sW sR).back = sW.back := rfl
@[simp] theorem mergePorts_fault (s sW sR : State) : (mergePorts s sW sR).fault = sR.fault := rfl
@[simp] theorem mergePorts_bound (s sW sR : State) : (mergePorts s sW sR).bound = s.bound := rfl
@[simp] theorem mergePorts_fatal (s sW sR : State) : (mergePorts s sW sR).fatal = s.fatal := rfl
@[simp] theorem mergePorts_errcode (s sW sR : State) : (mergePorts s sW sR).errcode = s.errcode := rfl
@[simp] theorem mergePorts_errport (s sW sR : State) : (mergePorts s sW sR).errport = s.errport := rfl
@[simp] theorem mergePorts_rspC (s sW sR : State) : (mergePorts s sW sR).rspC = s.quiet.rspC := rfl
@[simp] theorem mergePorts_rspW (s sW sR : State) : (mergePorts s sW sR).rspW = sW.rspW := rfl
@[simp] theorem mergePorts_rspR (s sW sR : State) : (mergePorts s sW sR).rspR = sR.rspR := rfl
@[simp] theorem mergePorts_rspPayR (s sW sR : State) : (mergePorts s sW sR).rspPayR = sR.rspPayR := rfl
@[simp] theorem mergePorts_mem (s sW sR : State) : (mergePorts s sW sR).mem = sW.mem := rfl
@[simp] theorem mergePorts_inputs (s sW sR : State) : (mergePorts s sW sR).inputs = s.inputs := rfl

/-! ### The derived signals and the slots read only the registers -/

@[simp] theorem writeSlot_unread (s : State) (i : Cursor) (v : Byte) : (s.writeSlot i v).unread = s.unread := rfl
@[simp] theorem writeSlot_free (s : State) (i : Cursor) (v : Byte) : (s.writeSlot i v).free = s.free := rfl
@[simp] theorem writeSlot_slot (s : State) (i : Cursor) (v : Byte) (j : Cursor) : (s.writeSlot i v).slot j = s.slot j := rfl
@[simp] theorem writeSlot_advance (s : State) (i : Cursor) (v : Byte) (x : Cursor) (k : Nat) : (s.writeSlot i v).advance x k = s.advance x k := rfl
@[simp] theorem writeSlot_room (s : State) (i : Cursor) (v : Byte) (x : Cursor) : (s.writeSlot i v).room x = s.room x := rfl
@[simp] theorem quiet_unread (s : State) : s.quiet.unread = s.unread := rfl
@[simp] theorem quiet_free (s : State) : s.quiet.free = s.free := rfl
@[simp] theorem quiet_slot (s : State) (j : Cursor) : s.quiet.slot j = s.slot j := rfl
@[simp] theorem quiet_advance (s : State) (x : Cursor) (k : Nat) : s.quiet.advance x k = s.advance x k := rfl
@[simp] theorem quiet_room (s : State) (x : Cursor) : s.quiet.room x = s.room x := rfl
@[simp] theorem quiet_readByte (s : State) (a : Nat) : s.quiet.readByte a = s.readByte a := rfl
@[simp] theorem quiet_readSlot (s : State) (i : Cursor) : s.quiet.readSlot i = s.readSlot i := rfl

end Sys2Proof.Machine
end

