-- ==== Sys2Proof/Laws/Memory.lean ====
section
/-!
SUPPORT. The storage list: what a read gives after a write, and that a write keeps the canonical form.
-/

namespace Sys2Proof.Machine

@[simp] theorem Mem.read_write_same (m : Mem) (a : Nat) (v : Byte) : (m.write a v).read a = some v := by
  induction m with
  | nil => simp [Mem.write, Mem.read]
  | cons c m ih =>
    obtain ⟨k, x⟩ := c
    simp only [Mem.write]
    split
    · simp [Mem.read]
    · split
      · simp [Mem.read]
      · rename_i h; simp [Mem.read, Ne.symm h, ih]

theorem Mem.read_write_other (m : Mem) {a b : Nat} (v : Byte) (h : a ≠ b) :
    (m.write b v).read a = m.read a := by
  induction m with
  | nil => simp [Mem.write, Mem.read, Ne.symm h]
  | cons c m ih =>
    obtain ⟨k, x⟩ := c
    simp only [Mem.write]
    split
    · simp [Mem.read, Ne.symm h]
    · split
      · rename_i hk; subst hk; simp [Mem.read, Ne.symm h]
      · simp [Mem.read, ih]

/-- The canonical form is that of a list sorted by address without repeats. -/
theorem Mem.wf_iff (m : Mem) : m.wf = true ↔ (m.map Prod.fst).Pairwise (· < ·) := by
  induction m with
  | nil => simp [Mem.wf]
  | cons c m ih =>
    cases m with
    | nil => simp [Mem.wf]
    | cons d m =>
      obtain ⟨a, x⟩ := c; obtain ⟨b, y⟩ := d
      simp only [Mem.wf, Bool.and_eq_true, decide_eq_true_eq, ih, List.map_cons, List.pairwise_cons]
      constructor
      · rintro ⟨hab, hb, hm⟩
        refine ⟨?_, hb, hm⟩
        intro z hz
        rcases List.mem_cons.mp hz with rfl | hz
        · exact hab
        · exact hab.trans (hb z hz)
      · rintro ⟨ha, hb, hm⟩
        exact ⟨ha b (List.mem_cons_self ..), hb, hm⟩

/-- The addresses listed after a write: those before, and the one written. -/
theorem Mem.mem_write {m : Mem} {a : Nat} {v : Byte} {cell : Host.Cell} (h : cell ∈ m.write a v) :
    cell ∈ m ∨ cell = (a, v) := by
  induction m with
  | nil => simp_all [Mem.write]
  | cons c m ih =>
    obtain ⟨k, x⟩ := c
    simp only [Mem.write] at h
    split at h
    · simp only [List.mem_cons] at h ⊢; tauto
    · split at h
      · simp only [List.mem_cons] at h ⊢; tauto
      · simp only [List.mem_cons] at h ⊢; tauto

/-- A write keeps the canonical form. -/
theorem Mem.write_wf {m : Mem} (a : Nat) (v : Byte) (h : m.wf = true) : (m.write a v).wf = true := by
  rw [Mem.wf_iff] at h ⊢
  induction m with
  | nil => simp [Mem.write]
  | cons c m ih =>
    obtain ⟨k, x⟩ := c
    simp only [List.map_cons, List.pairwise_cons] at h
    simp only [Mem.write]
    split
    · rename_i hlt
      simp only [List.map_cons, List.pairwise_cons]
      refine ⟨?_, h.1, h.2⟩
      intro z hz
      rcases List.mem_cons.mp hz with rfl | hz
      · exact hlt
      · exact hlt.trans (h.1 z hz)
    · split
      · rename_i hk; subst hk
        simpa using ⟨by simpa using h.1, h.2⟩
      · rename_i hnlt hne
        simp only [List.map_cons, List.pairwise_cons]
        refine ⟨?_, ih h.2⟩
        intro z hz
        obtain ⟨cell, hcell, rfl⟩ := List.mem_map.mp hz
        rcases Mem.mem_write hcell with hc | rfl
        · exact h.1 _ (List.mem_map.mpr ⟨cell, hc, rfl⟩)
        · show k < a; omega

@[simp] theorem readByte_writeByte_same (s : State) (a : Nat) (v : Byte) : (s.writeByte a v).readByte a = v := by
  simp [State.readByte]

theorem readByte_writeByte_other (s : State) {a b : Nat} (v : Byte) (h : a ≠ b) :
    (s.writeByte b v).readByte a = s.readByte a := by
  simp [State.readByte, Mem.read_write_other _ _ h]

end Sys2Proof.Machine
end

