-- ==== Sys2Proof/Laws/Cursor.lean ====
section
/-!
SUPPORT. Cursor arithmetic under the invariant of 10_state.md R36: masking is the remainder modulo the number of slots,
and slots of different indices are different addresses.
-/

namespace Sys2Proof.Machine

/-- The number of slots of the bound region, MASK + 1. -/
def State.slots (s : State) : Nat := s.mask.toNat + 1

theorem State.slots_pos (s : State) : 0 < s.slots := Nat.succ_pos _

theorem State.slots_le (s : State) : s.slots ≤ 65536 := by
  have := s.mask.isLt; unfold State.slots; omega

namespace State.CursorInv

variable {s : State}

theorem slots_eq (h : s.CursorInv) : s.slots = 2 ^ s.exp.toNat := by
  have hle : 2 ^ s.exp.toNat ≤ 2 ^ 16 := Nat.pow_le_pow_right (by decide) h.exp
  have hpos : 0 < 2 ^ s.exp.toNat := Nat.two_pow_pos _
  unfold State.slots
  rw [h.mask, BitVec.toNat_ofNat, Nat.mod_eq_of_lt (by omega)]
  omega

theorem slots_dvd (h : s.CursorInv) : s.slots ∣ 65536 := by
  rw [h.slots_eq]
  exact pow_dvd_pow 2 h.exp

theorem and_mask (h : s.CursorInv) (x : Cursor) : (x &&& s.mask).toNat = x.toNat % s.slots := by
  have hm : s.mask.toNat = 2 ^ s.exp.toNat - 1 := by
    have := h.slots_eq; unfold State.slots at this; omega
  rw [BitVec.toNat_and, hm, Nat.and_two_pow_sub_one_eq_mod, h.slots_eq]

theorem lt_slots_iff (h : s.CursorInv) (x : Cursor) : x &&& ~~~s.mask = 0 ↔ x.toNat < s.slots := by
  have key : x &&& ~~~s.mask = 0 ↔ x &&& s.mask = x := by
    constructor <;> intro hx <;> ext i hi
    · have := congrArg (fun v => v.getLsbD i) hx
      simp [hi] at this ⊢; grind
    · have := congrArg (fun v => v.getLsbD i) hx
      simp [hi] at this ⊢; grind
  rw [key]
  constructor
  · intro hx
    rw [← hx, h.and_mask]
    exact Nat.mod_lt _ s.slots_pos
  · intro hx
    apply BitVec.eq_of_toNat_eq
    rw [h.and_mask, Nat.mod_eq_of_lt hx]

theorem front_lt (h : s.CursorInv) : s.front.toNat < s.slots := (h.lt_slots_iff _).mp h.front

theorem back_lt (h : s.CursorInv) : s.back.toNat < s.slots := (h.lt_slots_iff _).mp h.back

theorem advance_toNat (h : s.CursorInv) (x : Cursor) (k : Nat) :
    (s.advance x k).toNat = (x.toNat + k) % s.slots := by
  rw [State.advance, h.and_mask, BitVec.toNat_add, BitVec.toNat_ofNat,
    Nat.mod_mod_of_dvd _ h.slots_dvd, Nat.add_mod, Nat.mod_mod_of_dvd _ h.slots_dvd, ← Nat.add_mod]

theorem advance_lt (h : s.CursorInv) (x : Cursor) (k : Nat) : (s.advance x k).toNat < s.slots := by
  rw [h.advance_toNat]; exact Nat.mod_lt _ s.slots_pos

theorem advance_in_mask (h : s.CursorInv) (x : Cursor) (k : Nat) : s.advance x k &&& ~~~s.mask = 0 :=
  (h.lt_slots_iff _).mpr (h.advance_lt x k)

theorem advance_zero (h : s.CursorInv) {x : Cursor} (hx : x.toNat < s.slots) : s.advance x 0 = x := by
  apply BitVec.eq_of_toNat_eq
  rw [h.advance_toNat, Nat.add_zero, Nat.mod_eq_of_lt hx]

theorem advance_advance (h : s.CursorInv) (x : Cursor) (j k : Nat) :
    s.advance (s.advance x j) k = s.advance x (j + k) := by
  apply BitVec.eq_of_toNat_eq
  rw [h.advance_toNat, h.advance_toNat, h.advance_toNat, Nat.mod_add_mod, Nat.add_assoc]

theorem unread_toNat (h : s.CursorInv) :
    s.unread.toNat = (s.back.toNat + (s.slots - s.front.toNat)) % s.slots := by
  have hf := h.front_lt
  have hs := s.slots_le
  obtain ⟨q, hq⟩ := h.slots_dvd
  rw [State.unread, h.and_mask, BitVec.toNat_sub, Nat.mod_mod_of_dvd _ h.slots_dvd]
  have hqpos : 0 < q := by rcases Nat.eq_zero_or_pos q with rfl | hq0 <;> omega
  have : 2 ^ 16 - s.front.toNat + s.back.toNat =
      s.back.toNat + (s.slots - s.front.toNat) + s.slots * (q - 1) := by
    have : s.slots * q = s.slots * (q - 1) + s.slots := by
      rw [← Nat.mul_succ]; congr 1; omega
    omega
  rw [this, Nat.add_mul_mod_self_left]

theorem unread_lt (h : s.CursorInv) : s.unread.toNat < s.slots := by
  rw [h.unread_toNat]; exact Nat.mod_lt _ s.slots_pos

/-- UNREAD in the two cases of the ring: BACK has or has not wrapped behind FRONT. -/
theorem unread_cases (h : s.CursorInv) :
    s.front.toNat ≤ s.back.toNat ∧ s.unread.toNat = s.back.toNat - s.front.toNat ∨
    s.back.toNat < s.front.toNat ∧ s.unread.toNat = s.back.toNat + s.slots - s.front.toNat := by
  have hf := h.front_lt; have hb := h.back_lt
  rw [h.unread_toNat]
  rcases Nat.lt_or_ge s.back.toNat s.front.toNat with hlt | hge
  · right
    rw [Nat.mod_eq_of_lt (by omega)]; omega
  · left
    rw [show s.back.toNat + (s.slots - s.front.toNat) = s.back.toNat - s.front.toNat + s.slots by omega,
      Nat.add_mod_right, Nat.mod_eq_of_lt (by omega)]
    omega

theorem free_toNat (h : s.CursorInv) : s.free.toNat = s.mask.toNat - s.unread.toNat := by
  have := h.unread_lt
  unfold State.slots at this
  rw [State.free, BitVec.toNat_sub_of_le (by rw [BitVec.le_def]; omega)]

theorem unread_eq_zero_iff (h : s.CursorInv) : s.unread.toNat = 0 ↔ s.front = s.back := by
  have hf := h.front_lt; have hb := h.back_lt
  rw [← BitVec.toNat_inj]
  rcases h.unread_cases with ⟨_, hu⟩ | ⟨_, hu⟩ <;> omega

/-- BACK is FRONT advanced by the unread count. -/
theorem advance_unread (h : s.CursorInv) : s.advance s.front s.unread.toNat = s.back := by
  have hf := h.front_lt; have hb := h.back_lt
  apply BitVec.eq_of_toNat_eq
  rw [h.advance_toNat]
  rcases h.unread_cases with ⟨_, hu⟩ | ⟨_, hu⟩ <;> rw [hu]
  · rw [Nat.add_sub_cancel' (by assumption), Nat.mod_eq_of_lt hb]
  · rw [show s.front.toNat + (s.back.toNat + s.slots - s.front.toNat) = s.back.toNat + s.slots by omega,
      Nat.add_mod_right, Nat.mod_eq_of_lt hb]

/-- Different distances below the number of slots lead to different indices. -/
theorem advance_inj (h : s.CursorInv) {x : Cursor} {j k : Nat} (hj : j < s.slots) (hk : k < s.slots)
    (hjk : s.advance x j = s.advance x k) : j = k := by
  have := congrArg BitVec.toNat hjk
  rw [h.advance_toNat, h.advance_toNat] at this
  have hmod : j % s.slots = k % s.slots := Nat.ModEq.add_left_cancel' x.toNat this
  rwa [Nat.mod_eq_of_lt hj, Nat.mod_eq_of_lt hk] at hmod

end State.CursorInv

/-- Slots of different indices are different addresses (20 R51): 2^ADDR_W is at least 2^16. -/
theorem State.slot_inj {s : State} (h : 16 ≤ s.addrW) {i j : Cursor} (hij : s.slot i = s.slot j) : i = j := by
  have hp : 2 ^ 16 ≤ 2 ^ s.addrW := Nat.pow_le_pow_right (by decide) h
  have hi := i.isLt; have hj := j.isLt
  have hmod : i.toNat % 2 ^ s.addrW = j.toNat % 2 ^ s.addrW := Nat.ModEq.add_left_cancel' s.base hij
  apply BitVec.eq_of_toNat_eq
  rwa [Nat.mod_eq_of_lt (by omega), Nat.mod_eq_of_lt (by omega)] at hmod

theorem State.slot_lt (s : State) (i : Cursor) : s.slot i < 2 ^ s.addrW := Nat.mod_lt _ (Nat.two_pow_pos _)

end Sys2Proof.Machine
end

