-- ==== Sys2Proof/Laws/Runs.lean ====
section
/-!
SUPPORT. The runs of one-byte accesses: a run split at the end of the storage is the run of masked indices (42_bulk_transfer.md
R160), what it stores and reads, and that it changes nothing but the storage.
-/

namespace Sys2Proof.Machine

/-! ### Runs change only the storage -/

theorem writeRun_eq (s : State) (i : Cursor) (bs : List Byte) :
    s.writeRun i bs = { s with mem := (s.writeRun i bs).mem } := by
  induction bs generalizing s i with
  | nil => rfl
  | cons b bs ih => rw [State.writeRun, ih]; rfl

theorem writeSplit_eq (s : State) (i : Cursor) (bs : List Byte) :
    s.writeSplit i bs = { s with mem := (s.writeSplit i bs).mem } := by
  simp only [State.writeSplit]
  rw [writeRun_eq, writeRun_eq s]

/-- The run of masked indices: the bytes one after the other, the index advanced by one each time. -/
def State.writeMasked (s : State) (i : Cursor) : List Byte → State
  | [] => s
  | b :: bs => (s.writeSlot i b).writeMasked (s.advance i 1) bs

theorem writeMasked_append (s : State) (h : s.CursorInv) (i : Cursor) (hi : i.toNat < s.slots) (as bs : List Byte) :
    s.writeMasked i (as ++ bs) = (s.writeMasked i as).writeMasked (s.advance i as.length) bs := by
  induction as generalizing s i with
  | nil => simp [State.writeMasked, h.advance_zero hi]
  | cons a as ih =>
    have hc : (s.writeSlot i a).CursorInv := ⟨h.exp, h.mask, h.front, h.back⟩
    simp only [List.cons_append, State.writeMasked, List.length_cons]
    rw [ih _ hc _ (h.advance_lt i 1), writeSlot_advance, h.advance_advance, Nat.add_comm 1]

/-- A run that stays below the end of the storage has the masked indices. -/
theorem writeRun_eq_masked (s : State) (h : s.CursorInv) (i : Cursor) (bs : List Byte)
    (hi : i.toNat + bs.length ≤ s.slots) : s.writeRun i bs = s.writeMasked i bs := by
  induction bs generalizing s i with
  | nil => rfl
  | cons b bs ih =>
    have hc : (s.writeSlot i b).CursorInv := ⟨h.exp, h.mask, h.front, h.back⟩
    simp only [List.length_cons] at hi
    simp only [State.writeRun, State.writeMasked]
    cases bs with
    | nil => rfl
    | cons b' bs =>
      have hsl := s.slots_le
      simp only [List.length_cons] at hi
      have hstep : s.advance i 1 = i + 1 := by
        apply BitVec.eq_of_toNat_eq
        rw [h.advance_toNat, Nat.mod_eq_of_lt (by omega), BitVec.toNat_add]
        simp; omega
      rw [hstep]
      apply ih _ hc
      have : (i + 1).toNat = i.toNat + 1 := by rw [BitVec.toNat_add]; simp; omega
      rw [this]
      simp only [List.length_cons]
      show i.toNat + 1 + (bs.length + 1) ≤ s.slots
      omega

/-- `room` is the number of slots from `start` to the end of the storage (42 R160). -/
theorem room_eq {s : State} {start : Cursor} (hs : start.toNat < s.slots) :
    s.room start = s.slots - start.toNat := by
  have hm := s.mask.isLt
  unfold State.slots at hs
  have one : (1 : BitVec 17).toNat = 1 := rfl
  simp only [State.room, State.slots, BitVec.toNat_sub, BitVec.toNat_add, BitVec.toNat_setWidth, one]
  omega

/-- The two segments of a PUSHN are one run of masked indices (42 R160). -/
theorem writeSplit_eq_masked (s : State) (h : s.CursorInv) (start : Cursor) (hs : start.toNat < s.slots)
    (bs : List Byte) (hn : bs.length < s.slots) : s.writeSplit start bs = s.writeMasked start bs := by
  have hroom := room_eq hs
  simp only [State.writeSplit, State.splitLen, hroom]
  set len1 := min bs.length (s.slots - start.toNat) with hlen1
  have htake : (bs.take len1).length = len1 := by simp; omega
  have hc : (s.writeMasked start (bs.take len1)).CursorInv := by
    have : ∀ (l : List Byte) (t : State) (i : Cursor), t.CursorInv → (t.writeMasked i l).CursorInv := by
      intro l
      induction l with
      | nil => intro t i ht; exact ht
      | cons b l ih => intro t i ht; exact ih _ _ ⟨ht.exp, ht.mask, ht.front, ht.back⟩
    exact this _ _ _ h
  have hslots : (s.writeMasked start (bs.take len1)).slots = s.slots := by
    have : ∀ (l : List Byte) (t : State) (i : Cursor), (t.writeMasked i l).slots = t.slots := by
      intro l
      induction l with
      | nil => intro t i; rfl
      | cons b l ih => intro t i; rw [State.writeMasked, ih]; rfl
    exact this _ _ _
  rw [writeRun_eq_masked s h start _ (by rw [htake]; omega)]
  rw [writeRun_eq_masked _ hc 0 _ (by rw [hslots]; simp; omega)]
  conv_rhs => rw [← List.take_append_drop len1 bs, writeMasked_append s h start hs]
  rw [htake]
  rcases Nat.lt_or_ge (s.slots - start.toNat) bs.length with hlt | hge
  · have hadv : s.advance start len1 = 0 := by
      apply BitVec.eq_of_toNat_eq
      rw [h.advance_toNat, show start.toNat + len1 = s.slots by omega, Nat.mod_self]
      rfl
    rw [hadv]
  · have : bs.drop len1 = [] := by simp; omega
    rw [this]; rfl

/-! ### What a masked run stores -/

theorem writeMasked_read_off (s : State) (h : s.CursorInv) (i : Cursor) (hi : i.toNat < s.slots) (bs : List Byte)
    (a : Nat) (ha : ∀ j < bs.length, a ≠ s.slot (s.advance i j)) :
    (s.writeMasked i bs).mem.read a = s.mem.read a := by
  induction bs generalizing s i with
  | nil => rfl
  | cons b bs ih =>
    have hc : (s.writeSlot i b).CursorInv := ⟨h.exp, h.mask, h.front, h.back⟩
    have h0 := ha 0 (by simp)
    rw [h.advance_zero hi] at h0
    rw [State.writeMasked, ih _ hc _ (h.advance_lt i 1), writeSlot_mem, Mem.read_write_other _ _ h0]
    intro j hj
    rw [writeSlot_slot, writeSlot_advance, h.advance_advance, Nat.add_comm]
    exact ha (j + 1) (by simpa using hj)

theorem writeMasked_read_at (s : State) (h : s.CursorInv) (hw : 16 ≤ s.addrW) (i : Cursor) (hi : i.toNat < s.slots)
    (bs : List Byte) (hn : bs.length ≤ s.slots) (j : Nat) (hj : j < bs.length) :
    (s.writeMasked i bs).mem.read (s.slot (s.advance i j)) = some bs[j] := by
  induction bs generalizing s i j with
  | nil => simp at hj
  | cons b bs ih =>
    have hc : (s.writeSlot i b).CursorInv := ⟨h.exp, h.mask, h.front, h.back⟩
    simp only [List.length_cons] at hn hj
    rw [State.writeMasked]
    cases j with
    | zero =>
      rw [h.advance_zero hi, writeMasked_read_off _ hc _ (h.advance_lt i 1)]
      · simp
      · intro k hk heq
        rw [writeSlot_slot, writeSlot_advance, h.advance_advance] at heq
        have := State.slot_inj hw heq
        rw [← h.advance_zero hi, h.advance_advance] at this
        have := h.advance_inj (by omega) (by omega) this
        omega
    | succ j =>
      have := ih (s.writeSlot i b) hc hw (s.advance i 1) (h.advance_lt i 1) (by show bs.length ≤ s.slots; omega) j
        (by omega)
      rw [writeSlot_slot, writeSlot_advance, h.advance_advance, Nat.add_comm 1] at this
      simpa using this

/-! ### What a split read gives -/

theorem readRun_eq_map (s : State) (i : Cursor) (n : Nat) :
    s.readRun i n = (List.range n).map fun j => s.readSlot (i + BitVec.ofNat 16 j) := by
  induction n generalizing i with
  | zero => rfl
  | succ n ih =>
    rw [State.readRun, ih, List.range_succ_eq_map]
    simp only [List.map_cons, List.map_map]
    congr 1
    · simp
    · apply List.map_congr_left
      intro j _
      simp only [Function.comp, Nat.succ_eq_add_one]
      congr 1
      rw [BitVec.add_assoc, Nat.add_comm j 1]
      congr 1
      apply BitVec.eq_of_toNat_eq
      simp [BitVec.toNat_add]

/-- The two segments of a POPN are the bytes at the masked indices, in order (42 R160). -/
theorem readSplit_eq_map (s : State) (h : s.CursorInv) (start : Cursor) (hs : start.toNat < s.slots) (n : Nat)
    (hn : n < s.slots) :
    s.readSplit start n = (List.range n).map fun j => s.readSlot (s.advance start j) := by
  have hroom := room_eq hs
  have hsl := s.slots_le
  simp only [State.readSplit, State.splitLen, hroom]
  set len1 := min n (s.slots - start.toNat) with hlen1
  have hsplit : n = len1 + (n - len1) := by omega
  conv_rhs => rw [hsplit, List.range_add, List.map_append, List.map_map]
  rw [readRun_eq_map, readRun_eq_map]
  congr 1
  · apply List.map_congr_left
    intro j hj
    have hj := List.mem_range.mp hj
    congr 1
    apply BitVec.eq_of_toNat_eq
    rw [h.advance_toNat, BitVec.toNat_add, BitVec.toNat_ofNat, Nat.mod_eq_of_lt (b := s.slots) (by omega)]
    omega
  · apply List.map_congr_left
    intro j hj
    have hj := List.mem_range.mp hj
    simp only [Function.comp]
    congr 1
    apply BitVec.eq_of_toNat_eq
    rw [h.advance_toNat, show start.toNat + (len1 + j) = j + s.slots by omega, Nat.add_mod_right,
      Nat.mod_eq_of_lt (by omega)]
    simp; omega

/-! ### What a run keeps -/

/-- A run of writes keeps the address width, BASE, and the storage list's form and addresses. -/
theorem writeRun_storage {s : State} (h : s.StorageInv) (i : Cursor) (bs : List Byte) :
    (s.writeRun i bs).StorageInv := by
  induction bs generalizing s i with
  | nil => exact h
  | cons b bs ih =>
    refine ih (s := s.writeSlot i b) ⟨h.addrW, h.base, Mem.write_wf _ _ h.memWf, ?_⟩ _
    intro c hc
    rcases Mem.mem_write hc with hc | rfl
    · exact h.memFits _ hc
    · exact s.slot_lt i

theorem writeSplit_storage {s : State} (h : s.StorageInv) (i : Cursor) (bs : List Byte) :
    (s.writeSplit i bs).StorageInv := writeRun_storage (writeRun_storage h _ _) _ _

@[simp] theorem readRun_length (s : State) (i : Cursor) (n : Nat) : (s.readRun i n).length = n := by
  induction n generalizing i with
  | zero => rfl
  | succ n ih => simp [State.readRun, ih]

@[simp] theorem readSplit_length (s : State) (i : Cursor) (n : Nat) : (s.readSplit i n).length = n := by
  simp [State.readSplit, State.splitLen]

/-- What is read does not depend on FAULT. -/
@[simp] theorem readRun_fault (s : State) (f : Bool) (i : Cursor) (n : Nat) :
    ({ s with fault := f } : State).readRun i n = s.readRun i n := by
  induction n generalizing i with
  | zero => rfl
  | succ n ih => simp only [State.readRun, ih]; rfl

@[simp] theorem readSplit_fault (s : State) (f : Bool) (i : Cursor) (n : Nat) :
    ({ s with fault := f } : State).readSplit i n = s.readSplit i n := by
  simp only [State.readSplit, readRun_fault]; rfl

end Sys2Proof.Machine
end

