-- ==== Sys2Proof/Laws/Exec.lean ====
section
/-!
SUPPORT. What a command alone at an edge can do, said once: `exec` is the shared `accept` over the command's effect, a
W command's effect touches only the writer's part of the state, and an R command's only the reader's.
-/

namespace Sys2Proof.Machine

/-- The effect of a command that is accepted without error, on the pre-edge state with its responses cleared. -/
def effect (i : Instr) (s : State) : State :=
  match i with
  | .nop _ => s
  | .bind n base =>
    { s with
      exp := n.setWidth 5, mask := maskOf n, base := base % 2 ^ s.addrW, front := 0, back := 0, fault := false,
      bound := true, rspC := ⟨true, response (maskOf n) 0 true⟩ }
  | .count p => s.respond p (response s.unread 0 false)
  | .pushb v =>
    if s.unread < s.mask then
      { s with mem := s.mem.write (s.slot s.back) v, back := s.advance s.back 1, rspW := ⟨true, response 0 0 true⟩ }
    else { s with fault := true, rspW := ⟨true, response 0 0 false⟩ }
  | .pushn len pay =>
    { s with
      mem := (s.writeSplit s.back (pay.bytes.take (clamp len s.free))).mem
      back := s.advance s.back (clamp len s.free)
      rspW := ⟨true, response (BitVec.ofNat 16 (clamp len s.free)) 0 false⟩ }
  | .popb =>
    if s.front != s.back then
      { s with front := s.advance s.front 1, rspR := ⟨true, response 0 (s.readSlot s.front) true⟩, rspPayR := [] }
    else { s with rspR := ⟨true, response 0 0 false⟩, rspPayR := [] }
  | .popn len =>
    { s with
      front := s.advance s.front (clamp len s.unread)
      rspR := ⟨true, response (BitVec.ofNat 16 (clamp len s.unread)) 0 false⟩
      rspPayR := s.readSplit s.front (clamp len s.unread) }
  | .chkf p => { s with fault := false }.respond p (response 0 0 s.fault)
  | .chkfClr => { s with front := s.back, fault := false, rspR := ⟨true, response 0 0 s.fault⟩, rspPayR := [] }

/-- Every command is `accept` over its effect. -/
theorem exec_eq_accept (i : Instr) (s : State) : exec i s = s.accept i (effect i) := by
  cases i with
  | pushn len pay =>
    simp only [exec, execPushn]
    congr 1; funext s
    rw [writeSplit_eq]; rfl
  | _ => rfl

theorem accept_of_fatal {s : State} (h : s.fatal = true) (i : Instr) (body : State → State) :
    s.accept i body = .next s.quiet := by simp [State.accept, h]

theorem accept_of_error {s : State} (h : s.fatal = false) {i : Instr} {e : ErrCode} {p : Port}
    (he : aloneError s i = some (e, p)) (body : State → State) : s.accept i body = .next (s.fatalEntry e p) := by
  simp [State.accept, h, he]

theorem accept_of_ok {s : State} (h : s.fatal = false) {i : Instr} (he : aloneError s i = none)
    (body : State → State) : s.accept i body = .next (body s.quiet) := by
  simp [State.accept, h, he]

/-- What a command alone at an edge can do: nothing in FATAL, fatal entry in error, else its effect. -/
theorem exec_cases {i : Instr} {s t : State} (h : exec i s = .next t) :
    (s.fatal = true ∧ t = s.quiet) ∨
    (s.fatal = false ∧ ∃ e p, aloneError s i = some (e, p) ∧ t = s.fatalEntry e p) ∨
    (s.fatal = false ∧ aloneError s i = none ∧ t = effect i s.quiet) := by
  rw [exec_eq_accept] at h
  cases hf : s.fatal with
  | true => rw [accept_of_fatal hf] at h; injection h with h; exact .inl ⟨rfl, h.symm⟩
  | false =>
    cases he : aloneError s i with
    | none => rw [accept_of_ok hf he] at h; injection h with h; exact .inr (.inr ⟨rfl, rfl, h.symm⟩)
    | some x =>
      obtain ⟨e, p⟩ := x
      rw [accept_of_error hf he] at h; injection h with h
      exact .inr (.inl ⟨rfl, e, p, rfl, h.symm⟩)

theorem exec_of_ok {i : Instr} {s : State} (h : s.fatal = false) (he : aloneError s i = none) :
    exec i s = .next (effect i s.quiet) := by rw [exec_eq_accept, accept_of_ok h he]

theorem exec_of_error {i : Instr} {s : State} (h : s.fatal = false) {e : ErrCode} {p : Port}
    (he : aloneError s i = some (e, p)) : exec i s = .next (s.fatalEntry e p) := by
  rw [exec_eq_accept, accept_of_error h he]

theorem exec_of_fatal {s : State} (h : s.fatal = true) (i : Instr) : exec i s = .next s.quiet := by
  rw [exec_eq_accept, accept_of_fatal h]

/-- A command of the table that W or R may present, NOP apart, is in error exactly while BOUND = 0 (60 R182). -/
theorem aloneError_role {i : Instr} (hw : i.wellFormed = true) (hn : i.isNop = false) (hc : i.port ≠ .C) (s : State) :
    aloneError s i = if s.bound then none else some (.unbound, i.port) := by
  cases i <;>
    simp_all [aloneError, alone, semanticError, active, Instr.isNop, Instr.wellFormed, Instr.port] <;>
    (rename_i p; cases p <;> simp_all)

@[simp] theorem aloneError_nop (s : State) (p : Port) : aloneError s (.nop p) = none := by
  cases p <;> simp [aloneError, alone, semanticError, active, Instr.isNop, Instr.wellFormed, Instr.port]

theorem aloneError_bind (s : State) (n : Byte) (base : Nat) :
    aloneError s (.bind n base) = if Config.nMax < n.toNat then some (.badExponent, .C) else none := by
  simp [aloneError, alone, semanticError, active, Instr.wellFormed, Instr.port]

/-- A command of the W port changes only BACK, FAULT, the storage and W's response (10 R37). -/
theorem effect_on_W {i : Instr} (hp : i.port = .W) (s : State) :
    effect i s =
      { s with
        back := (effect i s).back, fault := (effect i s).fault, mem := (effect i s).mem,
        rspW := (effect i s).rspW } := by
  cases i <;> simp only [Instr.port, reduceCtorEq] at hp <;> subst_vars <;>
    (simp only [effect, State.respond]; try split) <;> rfl

/-- A command of the R port changes only FRONT, FAULT and R's response (10 R37). -/
theorem effect_on_R {i : Instr} (hp : i.port = .R) (s : State) :
    effect i s =
      { s with
        front := (effect i s).front, fault := (effect i s).fault, rspR := (effect i s).rspR,
        rspPayR := (effect i s).rspPayR } := by
  cases i <;> simp only [Instr.port, reduceCtorEq] at hp <;> subst_vars <;>
    (simp only [effect, State.respond]; try split) <;> rfl

/-- Every command keeps the cursors' invariant (10 R36), a BIND if its exponent is legal. -/
theorem effect_cursorInv {i : Instr} {s : State} (h : s.CursorInv)
    (hb : ∀ n b, i = .bind n b → n.toNat ≤ Config.nMax) : (effect i s).CursorInv := by
  cases i <;> simp only [effect]
  case nop => exact h
  case bind n b =>
    have hn := hb n b rfl
    have he : (n.setWidth 5).toNat = n.toNat := by
      unfold Config.nMax at hn; rw [BitVec.toNat_setWidth]; omega
    refine ⟨by simpa [he] using hn, ?_, ?_, ?_⟩
    · simp [he, maskOf]
    · simp
    · simp
  case count p => exact ⟨by simpa using h.exp, by simpa using h.mask, by simpa using h.front, by simpa using h.back⟩
  case pushb v =>
    split
    · exact ⟨h.exp, h.mask, h.front, h.advance_in_mask _ _⟩
    · exact ⟨h.exp, h.mask, h.front, h.back⟩
  case pushn => exact ⟨h.exp, h.mask, h.front, h.advance_in_mask _ _⟩
  case popb =>
    split
    · exact ⟨h.exp, h.mask, h.advance_in_mask _ _, h.back⟩
    · exact ⟨h.exp, h.mask, h.front, h.back⟩
  case popn => exact ⟨h.exp, h.mask, h.advance_in_mask _ _, h.back⟩
  case chkf p => exact ⟨by simpa using h.exp, by simpa using h.mask, by simpa using h.front, by simpa using h.back⟩
  case chkfClr => exact ⟨h.exp, h.mask, h.back, h.back⟩

/-- Every command keeps the storage list's form, and every address listed fits ADDR_W. -/
theorem effect_storage {i : Instr} {s : State} (h : s.StorageInv) : (effect i s).StorageInv := by
  cases i <;> simp only [effect]
  case nop => exact h
  case bind n b => exact ⟨h.addrW, Nat.mod_lt _ (Nat.two_pow_pos _), h.memWf, h.memFits⟩
  case count p =>
    exact ⟨by simpa using h.addrW, by simpa using h.base, by simpa using h.memWf, by simpa using h.memFits⟩
  case pushb v =>
    split
    · have := writeRun_storage h s.back [v]
      exact ⟨h.addrW, h.base, this.memWf, this.memFits⟩
    · exact ⟨h.addrW, h.base, h.memWf, h.memFits⟩
  case pushn len pay =>
    have := writeSplit_storage h s.back (pay.bytes.take (clamp len s.free))
    exact ⟨h.addrW, h.base, this.memWf, by rw [writeSplit_eq] at this; exact this.memFits⟩
  case popb => split <;> exact ⟨h.addrW, h.base, h.memWf, h.memFits⟩
  case popn => exact ⟨h.addrW, h.base, h.memWf, h.memFits⟩
  case chkf p =>
    exact ⟨by simpa using h.addrW, by simpa using h.base, by simpa using h.memWf, by simpa using h.memFits⟩
  case chkfClr => exact ⟨h.addrW, h.base, h.memWf, h.memFits⟩

end Sys2Proof.Machine
end

