-- ==== Sys2Proof/Laws/PerInstr.lean ====
section
/-!
SUPPORT. Per command: its word carries the opcode-table row's match under the row's mask (30_encoding.md R88).
-/

namespace Sys2Proof

namespace Laws.EncodeMatches

/-- The word of a command matches its row of the table, and its opcode is that row's. -/
def Statement (i : Instr) : Prop :=
  encode i &&& i.kind.mask = i.kind.pattern ∧ kindOf (encode i) = some i.kind

theorem nop (p : Port) : Statement (.nop p) := ⟨by simp [encode, Instr.kind]; rfl, by simp [kindOf, encode, Instr.kind]⟩

theorem bind (n : Byte) (base : Nat) : Statement (.bind n base) := by
  refine ⟨?_, by simp [kindOf, encode, Instr.kind]⟩
  simp only [encode, Instr.kind, Kind.mask, Kind.pattern]
  ext i hi
  interval_cases i <;> simp [fields, place]

theorem count (p : Port) : Statement (.count p) := ⟨by simp [encode, Instr.kind]; rfl, by simp [kindOf, encode, Instr.kind]⟩

theorem pushb (v : Byte) : Statement (.pushb v) := by
  refine ⟨?_, by simp [kindOf, encode, Instr.kind]⟩
  simp only [encode, Instr.kind, Kind.mask, Kind.pattern]
  ext i hi
  interval_cases i <;> simp [fields, place]

theorem pushn (len : Cursor) (pay : Payload len.toNat) : Statement (.pushn len pay) := by
  refine ⟨?_, by simp [kindOf, encode, Instr.kind]⟩
  simp only [encode, Instr.kind, Kind.mask, Kind.pattern]
  ext i hi
  interval_cases i <;> simp [fields, place]

theorem popb : Statement .popb := ⟨by simp [encode, Instr.kind]; rfl, by simp [kindOf, encode, Instr.kind]⟩

theorem popn (len : Cursor) : Statement (.popn len) := by
  refine ⟨?_, by simp [kindOf, encode, Instr.kind]⟩
  simp only [encode, Instr.kind, Kind.mask, Kind.pattern]
  ext i hi
  interval_cases i <;> simp [fields, place]

theorem chkf (p : Port) : Statement (.chkf p) :=
  ⟨by simp [encode, Instr.kind]; rfl, by simp [kindOf, encode, Instr.kind, clrOf_fields]⟩

theorem chkfClr : Statement .chkfClr :=
  ⟨by simp [encode, Instr.kind]; rfl, by simp [kindOf, encode, Instr.kind, clrOf_fields]⟩

end Laws.EncodeMatches

end Sys2Proof
end

