-- ==== Sys2Proof/Laws/Edge.lean ====
section
/-!
SUPPORT. What an edge can do, said once: reset, nothing in FATAL, fatal entry, a BIND, or the merged effects of a W and an R
command (20_memory.md R60).
-/

namespace Sys2Proof.Machine

/-! ### What decoding gives -/

/-- A decoded command is the assembly of a word whose row matches it, on a legal port. -/
theorem decode_ok {p : Port} {w : Word} {addr : Nat} {pay : Payload (payLen w)} {i : Instr}
    (h : decode p w addr pay = .ok i) :
    ∃ k, ∃ hk : kindOf w = some k, k.legalOn p = true ∧ w &&& k.mask = k.pattern ∧ i = assemble p w addr pay k hk := by
  unfold decode at h
  split at h
  · cases h
  · rename_i k hk
    split at h
    · split at h
      · rename_i hl hm
        injection h with h
        exact ⟨k, hk, hl, hm, h.symm⟩
      · cases h
    · cases h

/-- A decoded command stands on the port it was decoded on, which its row allows. -/
theorem decode_port {p : Port} {w : Word} {addr : Nat} {pay : Payload (payLen w)} {i : Instr}
    (h : decode p w addr pay = .ok i) : i.port = p ∧ i.wellFormed = true := by
  obtain ⟨k, hk, hl, -, rfl⟩ := decode_ok h
  cases k <;> cases p <;> simp_all [assemble, Instr.port, Instr.wellFormed, Kind.legalOn]

theorem decodeC_ok {c : Option CCmd} {i : Instr} (h : decodeC c = .ok (some i)) :
    i.port = .C ∧ i.wellFormed = true := by
  cases c with
  | none => cases h
  | some c =>
    simp only [decodeC] at h
    cases hd : decode .C c.word c.addr (Payload.zeros _) with
    | error x => rw [hd] at h; cases h
    | ok j => rw [hd] at h; cases h; exact decode_port hd

theorem decodeW_ok {w : Option WCmd} {i : Instr} (h : decodeW w = .ok (some i)) :
    i.port = .W ∧ i.wellFormed = true := by
  cases w with
  | none => cases h
  | some w =>
    simp only [decodeW] at h
    cases hd : decode .W w.word 0 w.pay with
    | error x => rw [hd] at h; cases h
    | ok j => rw [hd] at h; cases h; exact decode_port hd

theorem decodeR_ok {r : Option Word} {i : Instr} (h : decodeR r = .ok (some i)) :
    i.port = .R ∧ i.wellFormed = true := by
  cases r with
  | none => cases h
  | some r =>
    simp only [decodeR] at h
    cases hd : decode .R r 0 (Payload.zeros _) with
    | error x => rw [hd] at h; cases h
    | ok j => rw [hd] at h; cases h; exact decode_port hd

/-- Every command of a decoded edge is well-formed and stands on its own port. -/
structure Accepted.OnPorts (d : Accepted) : Prop where
  c : ∀ i, d.c = some i → i.port = .C ∧ i.wellFormed = true
  w : ∀ i, d.w = some i → i.port = .W ∧ i.wellFormed = true
  r : ∀ i, d.r = some i → i.port = .R ∧ i.wellFormed = true

theorem decodeEdge_onPorts {e : Edge} {d : Accepted} (h : decodeEdge e = .ok d) : d.OnPorts := by
  unfold decodeEdge at h
  split at h
  · cases h
  · rename_i c hc
    split at h
    · cases h
    · rename_i w hw
      split at h
      · cases h
      · rename_i r hr
        injection h with h; subst h
        constructor
        · rintro i rfl; exact decodeC_ok hc
        · rintro i rfl; exact decodeW_ok hw
        · rintro i rfl; exact decodeR_ok hr

/-- No BIND stands on W or on R. -/
theorem Accepted.OnPorts.noBind {d : Accepted} (h : d.OnPorts) (n : Byte) (b : Nat) :
    d.w ≠ some (.bind n b) ∧ d.r ≠ some (.bind n b) :=
  ⟨fun hw => absurd (h.w _ hw).1 (by simp [Instr.port]), fun hr => absurd (h.r _ hr).1 (by simp [Instr.port])⟩

/-- No decoder answers the code 0. -/
theorem decode_error_ne_none {p : Port} {w : Word} {addr : Nat} {pay : Payload (payLen w)} {x : ErrCode}
    (h : decode p w addr pay = .error x) : x ≠ .none := by
  unfold decode at h
  split at h
  · cases h; decide
  · split at h
    · split at h <;> cases h; decide
    · cases h; decide

theorem decodeEdge_error_ne_none {e : Edge} {x : ErrCode} {p : Port} (h : decodeEdge e = .error (x, p)) :
    x ≠ .none := by
  have hmap : ∀ {r : Except ErrCode Instr}, r.map some = .error x → r = .error x := by
    intro r hr
    cases r with
    | error y => cases hr; rfl
    | ok i => cases hr
  unfold decodeEdge at h
  split at h
  · rename_i y hy
    cases h
    cases hc : e.c with
    | none => rw [hc] at hy; cases hy
    | some c => rw [hc] at hy; exact decode_error_ne_none (hmap hy)
  · split at h
    · rename_i y hy
      cases h
      cases hw : e.w with
      | none => rw [hw] at hy; cases hy
      | some w => rw [hw] at hy; exact decode_error_ne_none (hmap hy)
    · split at h
      · rename_i y hy
        cases h
        cases hr : e.r with
        | none => rw [hr] at hy; cases hy
        | some r => rw [hr] at hy; exact decode_error_ne_none (hmap hy)
      · cases h

/-- An error has a code from 1 to 6 (60 R181). -/
theorem firstError_ne_none {s : State} {e : Edge} {x : ErrCode} {p : Port} (h : firstError s e = some (x, p)) :
    x ≠ .none := by
  unfold firstError at h
  split at h
  · rename_i y hy; cases h; exact decodeEdge_error_ne_none hy
  · unfold semanticError at h
    repeat' (split at h)
    all_goals (cases h; try decide)

/-! ### What a port's command does at an edge that is in no error -/

/-- A port's part of the effect: nothing where no command is presented. -/
def portEffect : Option Instr → State → State
  | none, s => s
  | some i, s => effect i s

/-- The commands of an edge that is in no error and binds nothing are in no error alone. -/
theorem aloneError_of_semantic {s : State} {d : Accepted} (hd : d.OnPorts) (hs : semanticError s d = none)
    (hc : ∀ n b, d.c ≠ some (.bind n b)) {i : Instr} (hi : d.w = some i ∨ d.r = some i) : aloneError s i = none := by
  have hwf : i.wellFormed = true ∧ i.port ≠ .C := by
    rcases hi with hi | hi
    · have := hd.w i hi; exact ⟨this.2, by rw [this.1]; decide⟩
    · have := hd.r i hi; exact ⟨this.2, by rw [this.1]; decide⟩
  cases hn : i.isNop with
  | true => cases i <;> simp_all [Instr.isNop]
  | false =>
    rw [aloneError_role hwf.1 hn hwf.2]
    have hs' : s.bound = true := by
      unfold semanticError at hs
      split at hs
      · rename_i n b hb; exact absurd hb (hc n b)
      · by_contra hb
        rcases hi with hi | hi <;> rw [hi] at hs
        · simp [active, hn, hb] at hs
        · generalize active d.w = x at hs
          cases x <;> simp [active, hn, hb] at hs
    simp [hs']

/-- What FAULT is after the W command, which is what the R command finds (20 R62). -/
theorem execPort_ok {s : State} (hf : s.fatal = false) {i : Option Instr}
    (hi : ∀ j, i = some j → aloneError s j = none) : execPort i s = .next (portEffect i s.quiet) := by
  cases i with
  | none => rfl
  | some j => exact exec_of_ok hf (hi j rfl)

theorem aloneError_fault (s : State) (b : Bool) (i : Instr) : aloneError { s with fault := b } i = aloneError s i := rfl

/-- The pre-edge state as the R command finds it: FAULT is as the W command left it (20 R62). -/
def afterW (s : State) (w : Option Instr) : State := { s.quiet with fault := (portEffect w s.quiet).fault }

/-- The commit of an edge that is in no error (20 R60): a BIND, or the merged effects of the W and the R command. -/
theorem commit_ok {s : State} (hf : s.fatal = false) {d : Accepted} (hd : d.OnPorts) (hs : semanticError s d = none) :
    (∃ n b, d.c = some (.bind n b) ∧ n.toNat ≤ Config.nMax ∧ active d.w = false ∧ active d.r = false ∧
      commit s d = .next (effect (.bind n b) s.quiet)) ∨
    ((∀ n b, d.c ≠ some (.bind n b)) ∧
      commit s d = .next (mergePorts s (portEffect d.w s.quiet) (portEffect d.r (afterW s d.w)))) := by
  by_cases hc : ∃ n b, d.c = some (.bind n b)
  · obtain ⟨n, b, hc⟩ := hc
    left
    simp only [semanticError, hc] at hs
    split at hs
    · cases hs
    · rename_i hw
      split at hs
      · cases hs
      · rename_i hr
        split at hs
        · cases hs
        · rename_i hn
          refine ⟨n, b, hc, by omega, by simpa using hw, by simpa using hr, ?_⟩
          simp only [commit, hc]
          exact exec_of_ok hf (by rw [aloneError_bind]; simp [hn])
  · right
    have hc' : ∀ n b, d.c ≠ some (.bind n b) := fun n b h => hc ⟨n, b, h⟩
    refine ⟨hc', ?_⟩
    have hW := execPort_ok hf (i := d.w) fun j hj => aloneError_of_semantic hd hs hc' (.inl hj)
    have hR : execPort d.r { s with fault := (portEffect d.w s.quiet).fault } =
        .next (portEffect d.r (afterW s d.w)) :=
      execPort_ok (s := { s with fault := (portEffect d.w s.quiet).fault }) hf (i := d.r)
        fun j hj => (aloneError_fault s _ j).trans (aloneError_of_semantic hd hs hc' (.inr hj))
    unfold commit
    split
    · rename_i n b hb; exact absurd hb (hc' n b)
    · rw [hW]; dsimp only; rw [hR]

/-- What an edge can do. -/
inductive EdgeOutcome (s : State) (e : Edge) (t : State) : Prop where
  /-- An edge with `rst = 1`. -/
  | reset (hr : e.rst = true) (ht : t = s.resetEdge)
  /-- Nothing is accepted while FATAL = 1. -/
  | frozen (hr : e.rst = false) (hf : s.fatal = true) (ht : t = s.quiet)
  /-- Fatal entry. -/
  | error (hr : e.rst = false) (hf : s.fatal = false) (x : ErrCode) (p : Port) (hx : firstError s e = some (x, p))
      (ht : t = s.fatalEntry x p)
  /-- A BIND. -/
  | bind (hr : e.rst = false) (hf : s.fatal = false) (d : Accepted) (hd : decodeEdge e = .ok d)
      (hs : semanticError s d = none) (n : Byte) (b : Nat) (hc : d.c = some (.bind n b)) (hn : n.toNat ≤ Config.nMax)
      (hw : active d.w = false) (hv : active d.r = false) (ht : t = effect (.bind n b) s.quiet)
  /-- The effects of a W and of an R command. -/
  | ports (hr : e.rst = false) (hf : s.fatal = false) (d : Accepted) (hd : decodeEdge e = .ok d)
      (hs : semanticError s d = none) (hc : ∀ n b, d.c ≠ some (.bind n b))
      (ht : t = mergePorts s (portEffect d.w s.quiet) (portEffect d.r (afterW s d.w)))

/-- Every edge answers a next state, and by one of these five ways. -/
theorem edgeStep_outcome (s : State) (e : Edge) : ∃ t, edgeStep s e = .next t ∧ EdgeOutcome s e t := by
  unfold edgeStep
  cases hr : e.rst with
  | true => exact ⟨_, rfl, .reset hr rfl⟩
  | false =>
    cases hf : s.fatal with
    | true => exact ⟨_, rfl, .frozen hr hf rfl⟩
    | false =>
      cases hd : decodeEdge e with
      | error x => exact ⟨_, rfl, .error hr hf x.1 x.2 (by simp [firstError, hd]) rfl⟩
      | ok d =>
        cases hs : semanticError s d with
        | some x => exact ⟨_, by simp [hs], .error hr hf x.1 x.2 (by simp [firstError, hd, hs]) rfl⟩
        | none =>
          rcases commit_ok hf (decodeEdge_onPorts hd) hs with ⟨n, b, hc, hn, hw, hv, ht⟩ | ⟨hc, ht⟩
          · exact ⟨_, by simpa [hs] using ht, .bind hr hf d hd hs n b hc hn hw hv rfl⟩
          · exact ⟨_, by simpa [hs] using ht, .ports hr hf d hd hs hc rfl⟩

/-- What an edge answers (see `EdgeOutcome`). -/
theorem edgeStep_cases {s t : State} {e : Edge} (h : edgeStep s e = .next t) : EdgeOutcome s e t := by
  obtain ⟨t', h', ho⟩ := edgeStep_outcome s e
  rw [h] at h'; injection h' with h'; subst h'; exact ho

end Sys2Proof.Machine
end

