-- ==== Sys2Proof/Laws/Encoding.lean ====
section
/-!
SUPPORT. A word is its five fields (30_encoding.md R84), and a row's mask and match say that the fields its command does
not use are 0 (R85, R88).
-/

namespace Sys2Proof

/-- A word whose RSV is 0 is the word of its other four fields. -/
theorem eq_fields (w : Word) (h : rsvOf w = 0) :
    w = fields (opOf w) (BitVec.ofBool (clrOf w)) (immOf w) (lenOf w) := by
  have hb : ∀ j, j < 3 → w.getLsbD (5 + j) = false := by
    intro j hj
    have := congrArg (fun v => BitVec.getLsbD v j) h
    simpa [rsvOf, hj] using this
  have h5 := hb 0 (by decide); have h6 := hb 1 (by decide); have h7 := hb 2 (by decide)
  apply BitVec.eq_of_getLsbD_eq
  intro j hj
  interval_cases j <;> simp_all [fields, place, opOf, clrOf, immOf, lenOf]

/-- The fields a mask covers are the match's. -/
theorem field_of_match {w m v : Word} (h : w &&& m = v) (lo len : Nat) :
    w.extractLsb' lo len &&& m.extractLsb' lo len = v.extractLsb' lo len := by
  rw [← h, BitVec.extractLsb'_and]

/-- What matching its row says of a word's fields, row by row (30 R85). -/
theorem match_rsv {w : Word} {k : Kind} (h : w &&& k.mask = k.pattern) : rsvOf w = 0 := by
  have := field_of_match h 5 3
  cases k <;> exact (BitVec.and_allOnes (x := rsvOf w)).symm.trans this

theorem match_clr {w : Word} {k : Kind} (h : w &&& k.mask = k.pattern) : clrOf w = decide (k = .chkfClr) := by
  have h := congrArg (fun v => BitVec.getLsbD v 4) h
  cases k <;> simpa [clrOf, Kind.mask, Kind.pattern] using h

theorem match_imm {w : Word} {k : Kind} (h : w &&& k.mask = k.pattern) (hb : k ≠ .bind) (hp : k ≠ .pushb) :
    immOf w = 0 := by
  have := field_of_match h 8 8
  cases k <;> first | contradiction | exact (BitVec.and_allOnes (x := immOf w)).symm.trans this

theorem match_len {w : Word} {k : Kind} (h : w &&& k.mask = k.pattern) (hb : k ≠ .pushn) (hp : k ≠ .popn) :
    lenOf w = 0 := by
  have := field_of_match h 16 16
  cases k <;> first | contradiction | exact (BitVec.and_allOnes (x := lenOf w)).symm.trans this

/-- The opcode of a row (30 R86). -/
theorem opOf_of_kindOf {w : Word} {k : Kind} (h : kindOf w = some k) : opOf w = k.pattern.extractLsb' 0 4 := by
  have key : ∀ n : Nat, (opOf w).toNat = n → opOf w = BitVec.ofNat 4 n := by
    intro n hn
    apply BitVec.eq_of_toNat_eq
    have := (opOf w).isLt
    simp; omega
  unfold kindOf at h
  split at h <;> (try cases h) <;> rename_i hn <;> rw [key _ hn]
  all_goals try decide
  split <;> decide

end Sys2Proof
end

