-- ==== Sys2Proof/Laws/Ring.lean ====
section
/-!
SUPPORT. The ring: a W command stores a list of bytes at BACK and advances it by their number, an R command advances FRONT by
the number of bytes it removes, and the unread count follows (20_memory.md R63, 41_byte_transfer.md R143).
-/

namespace Sys2Proof.Machine

/-! ### What a port's part of the effect touches -/

theorem portEffect_on_W {i : Option Instr} (hp : ∀ j, i = some j → j.port = .W) (s : State) :
    portEffect i s =
      { s with
        back := (portEffect i s).back, fault := (portEffect i s).fault, mem := (portEffect i s).mem,
        rspW := (portEffect i s).rspW } := by
  cases i with
  | none => rfl
  | some i => exact effect_on_W (hp i rfl) s

theorem portEffect_on_R {i : Option Instr} (hp : ∀ j, i = some j → j.port = .R) (s : State) :
    portEffect i s =
      { s with
        front := (portEffect i s).front, fault := (portEffect i s).fault, rspR := (portEffect i s).rspR,
        rspPayR := (portEffect i s).rspPayR } := by
  cases i with
  | none => rfl
  | some i => exact effect_on_R (hp i rfl) s

/-! ### The bytes stored and the bytes removed -/

/-- The bytes the W command stores, the first at BACK. -/
def storedBytes (s : State) : Option Instr → List Byte
  | some (.pushb v) => if s.unread < s.mask then [v] else []
  | some (.pushn len pay) => pay.bytes.take (clamp len s.free)
  | _ => []

/-- The number of bytes the R command removes, the first at FRONT. -/
def removedCount (s : State) (r : Option Instr) : Nat :=
  match r with
  | none => 0
  | some i =>
    match i with
    | .nop _ => 0
    | .bind _ _ => 0
    | .count _ => 0
    | .pushb _ => 0
    | .pushn _ _ => 0
    | .popb => if s.front != s.back then 1 else 0
    | .popn len => clamp len s.unread
    | .chkf _ => 0
    | .chkfClr => s.unread.toNat

theorem storedBytes_pushn_length (s : State) (len : Cursor) (pay : Payload len.toNat) :
    (storedBytes s (some (.pushn len pay))).length = clamp len s.free := by
  have := pay.size
  simp only [storedBytes, List.length_take, clamp]
  omega

theorem storedBytes_le_free {s : State} (h : s.CursorInv) (w : Option Instr) :
    (storedBytes s w).length ≤ s.free.toNat := by
  have hf := h.free_toNat
  have hu := h.unread_lt
  unfold State.slots at hu
  unfold storedBytes
  split
  · split
    · rename_i hlt
      rw [BitVec.lt_def] at hlt
      simp only [List.length_singleton]; omega
    · exact Nat.zero_le _
  · simp only [List.length_take, clamp]; omega
  · exact Nat.zero_le _

theorem removedCount_le_unread {s : State} (h : s.CursorInv) (r : Option Instr) :
    removedCount s r ≤ s.unread.toNat := by
  have hz := h.unread_eq_zero_iff
  cases r with
  | none => exact Nat.zero_le _
  | some i =>
    cases i <;> simp only [removedCount, Nat.zero_le, Nat.le_refl]
    case popb =>
      split
      · rename_i hne
        have : s.unread.toNat ≠ 0 := fun h0 => by simp [hz.mp h0] at hne
        omega
      · exact Nat.zero_le _
    case popn => exact Nat.min_le_right _ _

theorem free_lt_slots {s : State} (h : s.CursorInv) : s.free.toNat < s.slots := by
  have := h.free_toNat
  unfold State.slots; omega

theorem portEffect_back {s : State} (h : s.CursorInv) {w : Option Instr} (hp : ∀ j, w = some j → j.port = .W) :
    (portEffect w s).back = s.advance s.back (storedBytes s w).length := by
  have h0 : s.back = s.advance s.back 0 := (h.advance_zero h.back_lt).symm
  cases w with
  | none => exact h0
  | some i =>
    cases i with
    | pushb v =>
      simp only [portEffect, effect, storedBytes]
      split
      · rfl
      · exact h0
    | pushn len pay => rw [storedBytes_pushn_length]; rfl
    | count p => simpa [portEffect, effect, storedBytes] using h0
    | chkf p => simpa [portEffect, effect, storedBytes] using h0
    | nop p => exact h0
    | bind n b => exact absurd (hp _ rfl) (by simp [Instr.port])
    | popb => exact absurd (hp _ rfl) (by simp [Instr.port])
    | popn len => exact absurd (hp _ rfl) (by simp [Instr.port])
    | chkfClr => exact absurd (hp _ rfl) (by simp [Instr.port])

theorem portEffect_mem {s : State} (h : s.CursorInv) {w : Option Instr} (hp : ∀ j, w = some j → j.port = .W) :
    (portEffect w s).mem = (s.writeMasked s.back (storedBytes s w)).mem := by
  cases w with
  | none => rfl
  | some i =>
    cases i with
    | pushb v => simp only [portEffect, effect, storedBytes]; split <;> rfl
    | pushn len pay =>
      simp only [portEffect, effect, storedBytes]
      rw [writeSplit_eq_masked s h _ h.back_lt]
      have := free_lt_slots h
      simp only [List.length_take, clamp]; omega
    | count p => simp [portEffect, effect, storedBytes, State.writeMasked]
    | chkf p => simp [portEffect, effect, storedBytes, State.writeMasked]
    | nop p => rfl
    | bind n b => exact absurd (hp _ rfl) (by simp [Instr.port])
    | popb => exact absurd (hp _ rfl) (by simp [Instr.port])
    | popn len => exact absurd (hp _ rfl) (by simp [Instr.port])
    | chkfClr => exact absurd (hp _ rfl) (by simp [Instr.port])

theorem portEffect_front {s : State} (h : s.CursorInv) {r : Option Instr} (hp : ∀ j, r = some j → j.port = .R) :
    (portEffect r s).front = s.advance s.front (removedCount s r) := by
  have h0 : s.front = s.advance s.front 0 := (h.advance_zero h.front_lt).symm
  cases r with
  | none => exact h0
  | some i =>
    cases i with
    | popb =>
      simp only [portEffect, effect, removedCount]
      split
      · rfl
      · exact h0
    | popn len => rfl
    | chkfClr => exact h.advance_unread.symm
    | count p => simpa [portEffect, effect, removedCount] using h0
    | chkf p => simpa [portEffect, effect, removedCount] using h0
    | nop p => exact h0
    | bind n b => exact absurd (hp _ rfl) (by simp [Instr.port])
    | pushb v => exact absurd (hp _ rfl) (by simp [Instr.port])
    | pushn len pay => exact absurd (hp _ rfl) (by simp [Instr.port])

/-- FAULT after a port's command: a rejected PUSHB sets it, CHKF, CHKF.CLR and BIND clear it. -/
theorem portEffect_fault (i : Option Instr) (s : State) :
    (portEffect i s).fault =
      match i.map Instr.kind with
      | some .pushb => if s.unread < s.mask then s.fault else true
      | some .chkf => false
      | some .chkfClr => false
      | some .bind => false
      | _ => s.fault := by
  cases i with
  | none => rfl
  | some i =>
    cases i with
    | pushb v => simp only [portEffect, effect]; split <;> rfl
    | popb => simp only [portEffect, effect]; split <;> rfl
    | count p => simp [portEffect, effect, Instr.kind]
    | chkf p => simp [portEffect, effect, Instr.kind]
    | _ => rfl

/-! ### The unread count when the cursors move -/

/-- FRONT advanced by `k` and BACK by `n`: the count loses `k` and gains `n`. -/
theorem unread_moved {s t : State} (hs : s.CursorInv) (ht : t.CursorInv) {k n : Nat} (hm : t.mask = s.mask)
    (hf : t.front = s.advance s.front k) (hb : t.back = s.advance s.back n) (hk : k ≤ s.unread.toNat)
    (hn : n ≤ s.free.toNat) : t.unread.toNat = s.unread.toNat - k + n := by
  have hsl : t.slots = s.slots := by unfold State.slots; rw [hm]
  have hfr := hs.free_toNat
  have hu := hs.unread_lt
  have htot : s.unread.toNat - k + n < s.slots := by unfold State.slots at hu ⊢; omega
  have hadv : t.advance t.front (s.unread.toNat - k + n) = t.back := by
    have e : ∀ x j, t.advance x j = s.advance x j := fun x j => by unfold State.advance; rw [hm]
    rw [e, hf, hb, hs.advance_advance, show k + (s.unread.toNat - k + n) = s.unread.toNat + n by omega,
      ← hs.advance_advance, hs.advance_unread]
  have := hadv.trans ht.advance_unread.symm
  exact (ht.advance_inj (by rw [hsl]; exact htot) ht.unread_lt this).symm

/-- The W command's slots are the free ones and the R command's the unread ones, so they differ (20 R63). -/
theorem free_slot_ne_unread_slot {s : State} (h : s.CursorInv) (hw : 16 ≤ s.addrW) {i j : Nat} (hi : i < s.free.toNat)
    (hj : j < s.unread.toNat) : s.slot (s.advance s.back i) ≠ s.slot (s.advance s.front j) := by
  intro heq
  have hidx := State.slot_inj hw heq
  have hf := h.free_toNat
  have hu := h.unread_lt
  rw [← h.advance_unread, h.advance_advance] at hidx
  unfold State.slots at hu
  have := h.advance_inj (by unfold State.slots; omega) (by unfold State.slots; omega) hidx
  omega

/-! ### One edge of the ring -/

/-- What an edge without BIND does to the ring: `k` bytes leave it at FRONT, the bytes `bs` join it at BACK. -/
structure RingMove (s t : State) (bs : List Byte) (k : Nat) : Prop where
  mask : t.mask = s.mask
  base : t.base = s.base
  addrW : t.addrW = s.addrW
  front : t.front = s.advance s.front k
  back : t.back = s.advance s.back bs.length
  kle : k ≤ s.unread.toNat
  nle : bs.length ≤ s.free.toNat
  stored : ∀ j (hj : j < bs.length), t.mem.read (s.slot (s.advance s.back j)) = some bs[j]
  kept : ∀ a, (∀ j < bs.length, a ≠ s.slot (s.advance s.back j)) → t.mem.read a = s.mem.read a

/-- The merged effects of a W and an R command move the ring so. -/
theorem ports_ring {s : State} (h : s.CursorInv) (hw : 16 ≤ s.addrW) {d : Accepted} (hp : d.OnPorts) :
    RingMove s (mergePorts s (portEffect d.w s.quiet) (portEffect d.r (afterW s d.w)))
      (storedBytes s d.w) (removedCount s d.r) := by
  have hq : s.quiet.CursorInv := ⟨h.exp, h.mask, h.front, h.back⟩
  have ha : (afterW s d.w).CursorInv := ⟨h.exp, h.mask, h.front, h.back⟩
  have hW : ∀ j, d.w = some j → j.port = .W := fun j hj => (hp.w j hj).1
  have hR : ∀ j, d.r = some j → j.port = .R := fun j hj => (hp.r j hj).1
  have hle := storedBytes_le_free h d.w
  have hfs := free_lt_slots h
  refine ⟨rfl, rfl, rfl, ?_, ?_, removedCount_le_unread h _, hle, ?_, ?_⟩
  · rw [mergePorts_front, portEffect_front ha hR]
    cases d.r with
    | none => rfl
    | some i => cases i <;> rfl
  · rw [mergePorts_back, portEffect_back hq hW]; rfl
  · intro j hj
    rw [mergePorts_mem, portEffect_mem hq hW]
    exact writeMasked_read_at s.quiet hq hw s.back hq.back_lt (storedBytes s d.w)
      (by show _ ≤ s.slots; omega) j hj
  · intro a hoff
    rw [mergePorts_mem, portEffect_mem hq hW]
    exact writeMasked_read_off s.quiet hq s.back hq.back_lt (storedBytes s d.w) a hoff

/-- The merged effects of a W and an R command keep the cursors' invariant (10 R36). -/
theorem ports_cursorInv {s : State} (h : s.CursorInv) (hw : 16 ≤ s.addrW) {d : Accepted} (hp : d.OnPorts) :
    (mergePorts s (portEffect d.w s.quiet) (portEffect d.r (afterW s d.w))).CursorInv := by
  have r := ports_ring h hw hp
  refine ⟨h.exp, h.mask, ?_, ?_⟩
  · rw [r.mask, r.front]; exact h.advance_in_mask _ _
  · rw [r.mask, r.back]; exact h.advance_in_mask _ _

theorem queue_length (s : State) : s.queue.length = s.unread.toNat := by simp [State.queue]

namespace RingMove

variable {s t : State} {bs : List Byte} {k : Nat}

theorem unread (r : RingMove s t bs k) (h : s.CursorInv) (ht : t.CursorInv) :
    t.unread.toNat = s.unread.toNat - k + bs.length :=
  unread_moved h ht r.mask r.front r.back r.kle r.nle

theorem slot (r : RingMove s t bs k) (i : Cursor) : t.slot i = s.slot i := by
  unfold State.slot; rw [r.base, r.addrW]

theorem advance (r : RingMove s t bs k) (x : Cursor) (j : Nat) : t.advance x j = s.advance x j := by
  unfold State.advance; rw [r.mask]

/-- The unread bytes that stay are the old ones, `k` further on. -/
theorem index_old (r : RingMove s t bs k) (h : s.CursorInv) (j : Nat) : t.unreadIndex j = s.unreadIndex (k + j) := by
  unfold State.unreadIndex; rw [r.advance, r.front, h.advance_advance]

/-- The unread bytes that are new stand from the old BACK on. -/
theorem index_new (r : RingMove s t bs k) (h : s.CursorInv) (j : Nat) (hj : s.unread.toNat - k ≤ j) :
    t.unreadIndex j = s.advance s.back (j - (s.unread.toNat - k)) := by
  have := r.kle
  rw [r.index_old h, State.unreadIndex,
    show k + j = s.unread.toNat + (j - (s.unread.toNat - k)) by omega, ← h.advance_advance, h.advance_unread]

theorem read_old (r : RingMove s t bs k) (h : s.CursorInv) (hw : 16 ≤ s.addrW) (j : Nat)
    (hj : j < s.unread.toNat - k) :
    t.mem.read (t.slot (t.unreadIndex j)) = s.mem.read (s.slot (s.unreadIndex (k + j))) := by
  rw [r.slot, r.index_old h, r.kept]
  intro i hi heq
  exact free_slot_ne_unread_slot h hw (Nat.lt_of_lt_of_le hi r.nle) (by omega) heq.symm

theorem read_new (r : RingMove s t bs k) (h : s.CursorInv) (j : Nat) (hj : s.unread.toNat - k ≤ j)
    (hl : j - (s.unread.toNat - k) < bs.length) :
    t.mem.read (t.slot (t.unreadIndex j)) = some bs[j - (s.unread.toNat - k)] := by
  rw [r.slot, r.index_new h j hj, r.stored _ hl]

/-- The queue after the move. -/
theorem queue (r : RingMove s t bs k) (h : s.CursorInv) (ht : t.CursorInv) (hw : 16 ≤ s.addrW) :
    t.queue = s.queue.drop k ++ bs := by
  have hk := r.kle
  have hu := r.unread h ht
  apply List.ext_getElem
  · simp [queue_length, hu]
  · intro j h1 h2
    rw [queue_length, hu] at h1
    rw [List.getElem_append]
    split
    · rename_i hj
      simp only [List.length_drop, queue_length] at hj
      have hro := r.read_old h hw j hj
      simp only [List.getElem_drop, State.queue, List.getElem_map, List.getElem_range]
      unfold State.readSlot State.readByte
      rw [hro, r.slot, r.index_old h]
    · rename_i hj
      simp only [List.length_drop, queue_length, not_lt] at hj
      have hrn := r.read_new h j hj (by omega)
      simp only [State.queue, List.getElem_map, List.getElem_range, List.length_drop, List.length_map,
        List.length_range]
      unfold State.readSlot State.readByte
      rw [hrn, Option.getD_some]

end RingMove

/-! ### What an R command's effect makes of FAULT -/

/-- Only the flag that CHKF and CHKF.CLR answer, and FAULT itself, depend on the FAULT an R command finds. -/
theorem portEffect_R_fault {r : Option Instr} (hr : ∀ i, r = some i → i.port = .R) (s : State) (f : Bool) :
    (portEffect r { s with fault := f }).front = (portEffect r s).front ∧
    (portEffect r { s with fault := f }).rspPayR = (portEffect r s).rspPayR ∧
    (portEffect r { s with fault := f }).rspR.valid = (portEffect r s).rspR.valid ∧
    (r ≠ some (.chkf .R) → r ≠ some .chkfClr →
      (portEffect r { s with fault := f }).rspR = (portEffect r s).rspR) := by
  cases r with
  | none => exact ⟨rfl, rfl, rfl, fun _ _ => rfl⟩
  | some i =>
    have hp := hr i rfl
    cases i with
    | nop p => exact ⟨rfl, rfl, rfl, fun _ _ => rfl⟩
    | count p => cases hp; exact ⟨rfl, rfl, rfl, fun _ _ => rfl⟩
    | chkf p => cases hp; simp [portEffect, effect, State.respond]
    | chkfClr => simp [portEffect, effect]
    | popb =>
      have : effect .popb { s with fault := f } = { effect .popb s with fault := f } := by
        by_cases h : (s.front != s.back) = true
        · have h' : (({ s with fault := f } : State).front != ({ s with fault := f } : State).back) = true := h
          rw [effect, effect, if_pos h, if_pos h']; rfl
        · have h' : ¬ (({ s with fault := f } : State).front != ({ s with fault := f } : State).back) = true := h
          rw [effect, effect, if_neg h, if_neg h']
      simp only [portEffect, this]; simp
    | popn len => exact ⟨rfl, readSplit_fault s f _ _, rfl, fun _ _ => rfl⟩
    | bind => cases hp
    | pushb => cases hp
    | pushn => cases hp

/-! ### One command alone -/

/-- A W or R command alone, in no error, moves the ring and keeps the cursors' invariant. -/
theorem exec_ring {s : State} (h : s.CursorInv) (ha : 16 ≤ s.addrW) {i : Instr} (hp : i.port ≠ .C)
    (hw : i.wellFormed = true) (hf : s.fatal = false) (he : aloneError s i = none) :
    ∃ t, exec i s = .next t ∧ t.CursorInv ∧
      RingMove s t (storedBytes s (alone i).w) (removedCount s (alone i).r) := by
  have honp : (alone i).OnPorts := by
    constructor <;> intro j hj <;> cases hport : i.port <;> simp [alone, hport] at hj <;> subst hj <;>
      exact ⟨hport, hw⟩
  have r := ports_ring h ha honp
  rw [exec_of_ok hf he]
  refine ⟨_, rfl, effect_cursorInv ⟨h.exp, h.mask, h.front, h.back⟩ (by rintro n b rfl; exact absurd rfl hp), ?_⟩
  cases hport : i.port with
  | C => exact absurd hport hp
  | W =>
    rw [effect_on_W hport]
    have hal : alone i = ⟨none, some i, none⟩ := by simp [alone, hport]
    rw [hal] at r ⊢
    exact ⟨rfl, rfl, rfl, r.front, r.back, r.kle, r.nle, r.stored, r.kept⟩
  | R =>
    rw [effect_on_R hport]
    have hal : alone i = ⟨none, none, some i⟩ := by simp [alone, hport]
    rw [hal] at r ⊢
    exact ⟨rfl, rfl, rfl, r.front, r.back, r.kle, r.nle, r.stored, r.kept⟩

/-! ### What a port's command makes of another storage -/

/-- A W command's effect but for the storage does not depend on the storage. -/
theorem portEffect_W_mem {w : Option Instr} (hp : ∀ j, w = some j → j.port = .W) (s : State) (m : Mem) :
    ∃ m', portEffect w { s with mem := m } = { portEffect w s with mem := m' } := by
  cases w with
  | none => exact ⟨m, rfl⟩
  | some i =>
    have hi := hp i rfl
    cases i with
    | nop => exact ⟨m, rfl⟩
    | count p => cases hi; exact ⟨m, rfl⟩
    | chkf p => cases hi; exact ⟨m, rfl⟩
    | pushb v =>
      by_cases h : s.unread < s.mask
      · have h' : ({ s with mem := m } : State).unread < ({ s with mem := m } : State).mask := h
        simp only [portEffect, effect, if_pos h, if_pos h']
        exact ⟨_, rfl⟩
      · have h' : ¬ ({ s with mem := m } : State).unread < ({ s with mem := m } : State).mask := h
        simp only [portEffect, effect, if_neg h, if_neg h']
        exact ⟨m, rfl⟩
    | pushn len pay => exact ⟨_, rfl⟩
    | _ => cases hi

/-- An R command's effect depends on no byte but those it reads, the first at FRONT; a CHKF.CLR reads none. -/
theorem portEffect_R_mem {s : State} (h : s.CursorInv) {r : Option Instr} (hp : ∀ j, r = some j → j.port = .R) (m : Mem)
    (hm : r ≠ some .chkfClr → ∀ j < removedCount s r,
      { s with mem := m }.readSlot (s.advance s.front j) = s.readSlot (s.advance s.front j)) :
    portEffect r { s with mem := m } = { portEffect r s with mem := m } := by
  cases r with
  | none => rfl
  | some i =>
    have hi := hp i rfl
    cases i with
    | nop => rfl
    | count p => cases hi; rfl
    | chkf p => cases hi; rfl
    | chkfClr => rfl
    | popb =>
      by_cases hne : (s.front != s.back) = true
      · have h0 := hm (by simp) 0 (by simp only [removedCount, hne, if_true]; decide)
        rw [h.advance_zero h.front_lt] at h0
        simp only [portEffect, effect, if_pos hne, h0]; rfl
      · simp only [portEffect, effect, if_neg hne]
    | popn len =>
      have h' : ({ s with mem := m } : State).CursorInv := ⟨h.exp, h.mask, h.front, h.back⟩
      have hlt : clamp len s.unread < s.slots := Nat.lt_of_le_of_lt (Nat.min_le_right _ _) h.unread_lt
      have hread : ({ s with mem := m } : State).readSplit s.front (clamp len s.unread) =
          s.readSplit s.front (clamp len s.unread) := by
        rw [readSplit_eq_map s h s.front h.front_lt _ hlt, readSplit_eq_map _ h' s.front h.front_lt _ hlt]
        exact List.map_congr_left fun j hj => hm (by simp) j (List.mem_range.mp hj)
      have hpay : (effect (.popn len) { s with mem := m }).rspPayR = (effect (.popn len) s).rspPayR := hread
      have e : effect (.popn len) { s with mem := m } =
          { effect (.popn len) s with mem := m, rspPayR := (effect (.popn len) { s with mem := m }).rspPayR } := rfl
      simp only [portEffect]
      rw [e, hpay]
    | _ => cases hi

end Sys2Proof.Machine
end

