-- ==== Sys2Proof/Tests/Slice0.lean ====
section
/-!
SUPPORT. The model's own tests: ill-formed commands, words of the spec decoded, one edge of each command with the results
of 95_test_vectors.md, and for every statement with hypotheses a state and operands that meet them.
-/

namespace Sys2Proof.Tests

open Sys2Proof Sys2Proof.Machine Sys2Proof.Spec

/-! ## States and edges -/

/-- S = (exp, 2^exp - 1, front, back, fault, 1) of 95, BASE 0x0100, with the given bytes in the given slots. -/
def at_ (exp : Nat) (front back : Cursor) (fault : Bool) (slots : List (Cursor × Byte)) : State :=
  slots.foldl (fun s c => s.writeSlot c.1 c.2)
    { State.reset with
      exp := BitVec.ofNat 5 exp, mask := BitVec.ofNat 16 (2 ^ exp - 1), base := 0x0100, front := front, back := back,
      fault := fault, bound := true }

/-- Three bytes from slot 2 on, FAULT 1, as in T43 (whose slots 2 to 4 hold bytes the vector does not name). -/
def some3 : State := at_ 3 2 5 true [(2, 0x32), (3, 0x33), (4, 0x34)]

/-- Seven bytes of seven, FAULT 0, as in T44. -/
def full7 : State := at_ 3 0 7 false
  [(0, 0xAA), (1, 0x31), (2, 0x32), (3, 0x33), (4, 0x34), (5, 0x35), (6, 0x36)]

/-- Empty, FAULT 0, as in T45. -/
def none4 : State := at_ 3 4 4 false []

/-- The buffer of capacity 0, as in T28. -/
def zeroCap : State := at_ 0 0 0 false []

/-- The largest buffer, full, as in T25. -/
def fullMax : State := at_ 16 0x0000 0xFFFF false []

/-- FATAL, as T60 leaves it. -/
def dead : State := State.reset.fatalEntry .unbound .W

/-- A command word on W without payload. -/
def onW (w : Word) (h : payLen w = 0 := by decide) : Edge := ⟨false, none, some ⟨w, ⟨[], h.symm⟩⟩, none⟩

/-- A command word on R. -/
def onR (w : Word) : Edge := ⟨false, none, none, some w⟩

/-- A command word on C. -/
def onC (w : Word) (addr : Nat) : Edge := ⟨false, some ⟨w, addr⟩, none, none⟩

/-- A command on W without payload and one on R. -/
def onWR (w r : Word) (h : payLen w = 0 := by decide) : Edge := ⟨false, none, some ⟨w, ⟨[], h.symm⟩⟩, some r⟩

/-- What is seen of the state an edge leaves. -/
def seen {α : Type} (r : Result) (view : State → α) : Option α :=
  match r with
  | .next t => some (view t)
  | .fault _ => none
  | .refused _ => none

/-- FRONT, BACK, FAULT and the responses of W and R. -/
def brief (t : State) : Cursor × Cursor × Bool × Rsp × Rsp := (t.front, t.back, t.fault, t.rspW, t.rspR)

/-- ERRCODE, ERRPORT and STATUS. -/
def errors (t : State) : ErrCode × Option Port × Word := (t.errcode, t.errport, t.status)

/-- No response. -/
def noRsp : Rsp := ⟨false, 0⟩

/-! ## Well-formedness (30 R87) -/

theorem test_wellFormed_refuses_count_on_C : (Instr.count .C).wellFormed = false := by decide

theorem test_wellFormed_refuses_chkf_on_C : (Instr.chkf .C).wellFormed = false := by decide

/-! ## Decoding: words of 30 R85 and of 95, by the bits of their fields -/

/-- 30 R85: NOP, OP 0x0. -/
theorem test_decode_nop : decodeEdge (onC 0b00000000_00000000_00000000_00000000 9) = .ok ⟨some (.nop .C), none, none⟩ := by
  decide

/-- 95 T69: IMM8 = N = 20, OP 0x1, the base beside it. -/
theorem test_decode_bind :
    decodeEdge (onC 0b00000000_00000000_00010100_00000001 0x2000) = .ok ⟨some (.bind 20 0x2000), none, none⟩ := by decide

/-- 30 R85: COUNT, OP 0x2. -/
theorem test_decode_count : decodeEdge (onR 0b00000000_00000000_00000000_00000010) = .ok ⟨none, none, some (.count .R)⟩ := by
  decide

/-- 95 T20: IMM8 = 0x41, OP 0x3. -/
theorem test_decode_pushb :
    decodeEdge (onW 0b00000000_00000000_01000001_00000011) = .ok ⟨none, some (.pushb 0x41), none⟩ := by decide

/-- 95 T35: LEN = 2, OP 0x4, two payload bytes. -/
theorem test_decode_pushn :
    decodeEdge ⟨false, none, some ⟨0b00000000_00000010_00000000_00000100, ⟨[1, 2], rfl⟩⟩, none⟩ =
      .ok ⟨none, some (.pushn 2 ⟨[1, 2], rfl⟩), none⟩ := by decide

/-- 30 R85: POPB, OP 0x5. -/
theorem test_decode_popb : decodeEdge (onR 0b00000000_00000000_00000000_00000101) = .ok ⟨none, none, some .popb⟩ := by decide

/-- 95 T37: LEN = 10, OP 0x6. -/
theorem test_decode_popn : decodeEdge (onR 0b00000000_00001010_00000000_00000110) = .ok ⟨none, none, some (.popn 10)⟩ := by
  decide

/-- 30 R85: CHKF, OP 0x7 and CLR 0. -/
theorem test_decode_chkf : decodeEdge (onW 0b00000000_00000000_00000000_00000111) = .ok ⟨none, some (.chkf .W), none⟩ := by
  decide

/-- 30 R85: CHKF.CLR, OP 0x7 and CLR 1. -/
theorem test_decode_chkfClr : decodeEdge (onR 0b00000000_00000000_00000000_00010111) = .ok ⟨none, none, some .chkfClr⟩ := by
  decide

/-- 95 T66: a field that COUNT does not use. -/
theorem test_decode_reserved_field : decodeEdge (onW 0x00010002) = .error (.reservedField, .W) := by decide

/-! ## One edge of each command (95_test_vectors.md) -/

/-- T1. -/
theorem test_nop : seen (exec (.nop .W) State.reset) (fun t => (t.status, t.rspW)) = some (0x00000003, noRsp) := by decide

/-- T5: a rebind; the old unread bytes are gone. -/
theorem test_bind : seen (exec (.bind 4 0x0200) (at_ 3 5 2 true []))
    (fun t => (t.exp, t.base, t.snap, t.fault, t.rspC)) =
      some (4, 0x0200, 0x00000000, false, ⟨true, 0x0100000F⟩) := by decide

/-- T4: the largest exponent. -/
theorem test_bind_largest : seen (exec (.bind 16 0) State.reset) (fun t => (t.capOut, t.status, t.rspC)) =
    some (0x10000, 0x00100009, ⟨true, 0x0100FFFF⟩) := by decide

/-- T6: BACK has wrapped behind FRONT. -/
theorem test_count : seen (exec (.count .W) (at_ 3 6 1 false [])) brief =
    some (6, 1, false, ⟨true, 0x00000003⟩, noRsp) := by decide

/-- T7: the largest count, on R. -/
theorem test_count_largest : seen (exec (.count .R) (at_ 16 0x0010 0x000F false [])) brief =
    some (0x0010, 0x000F, false, noRsp, ⟨true, 0x0000FFFF⟩) := by decide

/-- T24: the last slot, and BACK wraps. -/
theorem test_pushb_wraps : seen (exec (.pushb 0xEE) (at_ 16 0x0005 0xFFFF false []))
    (fun t => (brief t, t.readSlot 0xFFFF)) = some ((0x0005, 0x0000, false, ⟨true, 0x01000000⟩, noRsp), 0xEE) := by decide

/-- T21: rejected. -/
theorem test_pushb_full : seen (exec (.pushb 0x42) full7) (fun t => (brief t, decide (t.mem = full7.mem))) =
    some ((0, 7, true, ⟨true, 0x00000000⟩, noRsp), true) := by decide

/-- T33: clamped to the free space, in two segments; FAULT stays as it is. -/
theorem test_pushn_split : seen (exec (.pushn 9 ⟨[1, 2, 3, 4, 5, 6, 7, 8, 9], rfl⟩) (at_ 3 5 5 false []))
    (fun t => (brief t, t.queue)) =
      some ((5, 4, false, ⟨true, 0x00000007⟩, noRsp), [1, 2, 3, 4, 5, 6, 7]) := by decide

/-- T35: nothing free. -/
theorem test_pushn_full : seen (exec (.pushn 2 ⟨[1, 2], rfl⟩) full7) brief =
    some (0, 7, false, ⟨true, 0x00000000⟩, noRsp) := by decide

/-- T26: the last slot, and FRONT wraps. -/
theorem test_popb_wraps : seen (exec .popb (at_ 3 7 2 false [(7, 0x08)])) brief =
    some (0, 2, false, noRsp, ⟨true, 0x01080000⟩) := by decide

/-- T27: no data; FAULT stays. -/
theorem test_popb_empty : seen (exec .popb (at_ 3 4 4 true [])) brief =
    some (4, 4, true, noRsp, ⟨true, 0x00000000⟩) := by decide

/-- T37: clamped to the unread count, in two segments. -/
theorem test_popn_split : seen (exec (.popn 10) (at_ 3 7 4 false [(7, 3), (0, 4), (1, 5), (2, 6), (3, 7)]))
    (fun t => (brief t, t.rspPayR)) = some ((4, 4, false, noRsp, ⟨true, 0x00000005⟩), [3, 4, 5, 6, 7]) := by decide

/-- T39: LEN 0. -/
theorem test_popn_zero : seen (exec (.popn 0) (at_ 3 2 6 false [])) (fun t => (brief t, t.rspPayR)) =
    some ((2, 6, false, noRsp, ⟨true, 0x00000000⟩), []) := by decide

/-- T12. -/
theorem test_chkf : seen (exec (.chkf .W) (at_ 3 0 3 true [])) brief =
    some (0, 3, false, ⟨true, 0x01000000⟩, noRsp) := by decide

/-- T13. -/
theorem test_chkfClr : seen (exec .chkfClr (at_ 3 3 6 true [])) brief =
    some (6, 6, false, noRsp, ⟨true, 0x01000000⟩) := by decide

/-! ## Two commands at one edge -/

/-- T43: the byte stored at the edge of the CHKF.CLR stays. -/
theorem test_edge_push_beside_clear : seen (edgeStep some3 (onWR 0x00007703 0x00000017)) (fun t => (brief t, t.queue)) =
    some ((5, 6, false, ⟨true, 0x01000000⟩, ⟨true, 0x01000000⟩), [0x77]) := by decide

/-- T44: the push is judged on the pre-edge FULL. -/
theorem test_edge_push_beside_pop : seen (edgeStep full7 (onWR 0x00005503 0x00000005)) brief =
    some (1, 7, true, ⟨true, 0x00000000⟩, ⟨true, 0x01AA0000⟩) := by decide

/-- T46: the rejection is reported by R at once. -/
theorem test_edge_rejection_beside_clear : seen (edgeStep full7 (onWR 0x00009903 0x00000017)) brief =
    some (7, 7, false, ⟨true, 0x00000000⟩, ⟨true, 0x01000000⟩) := by decide

/-- T48: FAULT is reported once, on W. -/
theorem test_edge_chkf_twice : seen (edgeStep (at_ 3 1 3 true []) (onWR 0x00000007 0x00000007)) brief =
    some (1, 3, false, ⟨true, 0x01000000⟩, ⟨true, 0x00000000⟩) := by decide

/-- T49: both bulk transfers are clamped at the pre-edge counts. -/
theorem test_edge_bulk_both : seen (edgeStep (at_ 3 0 3 false [(0, 1), (1, 2), (2, 3)])
      ⟨false, none, some ⟨0x000A0004, ⟨[0x10, 0x11, 0x12, 0x13, 0x14, 0x15, 0x16, 0x17, 0x18, 0x19], rfl⟩⟩,
        some 0x000A0006⟩) (fun t => (brief t, t.rspPayR, t.queue)) =
    some ((3, 7, false, ⟨true, 0x00000004⟩, ⟨true, 0x00000003⟩), [1, 2, 3], [0x10, 0x11, 0x12, 0x13]) := by decide

/-! ## Errors (95, T60 to T77) -/

/-- T60. -/
theorem test_fatal_unbound : seen (edgeStep State.reset (onW 0x00000103)) errors =
    some (.unbound, some .W, 0x00001613) := by decide

/-- T62. -/
theorem test_fatal_exponent : seen (edgeStep State.reset (onC 0x00001101 0)) errors =
    some (.badExponent, some .C, 0x00000D13) := by decide

/-- T69: BIND_CONFLICT before BAD_EXPONENT. -/
theorem test_fatal_conflict : seen (edgeStep (at_ 3 0 0 false []) ⟨false, some ⟨0x00001401, 0⟩, none, some 0x00000005⟩)
    errors = some (.bindConflict, some .R, 0x00031C19) := by decide

/-- T72: the legal PUSHB beside a malformed word does not commit. -/
theorem test_fatal_commits_nothing : seen (edgeStep (at_ 3 0 0 false [(0, 0)]) (onWR 0x00000503 0x0000000C))
    (fun t => (t.status, t.snap, t.rspW.valid, t.readSlot 0)) = some (0x00031919, 0x00000000, false, 0x00) := by decide

/-- T74: nothing is accepted in FATAL. -/
theorem test_fatal_frozen : seen (edgeStep dead (onC 0x00000301 0)) (fun t => decide (t = dead)) = some true := by decide

/-- T75: reset wins. -/
theorem test_reset_wins : seen (edgeStep dead { onWR 0x00000503 0x0000000C with rst := true })
    (fun t => (errors t, t.snap, t.capOut, t.countOut)) = some ((.none, none, 0x00000003), 0, 0, 0) := by decide

/-- T76: NOP is exempt from BIND_CONFLICT. -/
theorem test_bind_beside_nops : seen (edgeStep (at_ 3 0 0 false [])
    ⟨false, some ⟨0x00000501, 0⟩, some ⟨0, ⟨[], rfl⟩⟩, some 0⟩) errors = some (.none, none, 0x00050009) := by decide

/-- The host's probe: the word placed is the one the next step runs (T3's word). -/
theorem test_withFetchWord : seen (step (State.reset.withFetchWord 32 0x00000101)) (fun t => (t.exp, t.rspC)) =
    some (1, ⟨true, 0x01000001⟩) := by decide

/-! ## States and edges that meet the statements' hypotheses -/

theorem some3_inv : some3.Inv :=
  ⟨⟨by decide, by decide, by decide, by decide⟩, ⟨by decide, by decide, by decide, by decide⟩,
    ⟨by decide, by decide, by decide, by decide, by decide⟩⟩

theorem full7_inv : full7.Inv :=
  ⟨⟨by decide, by decide, by decide, by decide⟩, ⟨by decide, by decide, by decide, by decide⟩,
    ⟨by decide, by decide, by decide, by decide, by decide⟩⟩

theorem none4_inv : none4.Inv :=
  ⟨⟨by decide, by decide, by decide, by decide⟩, ⟨by decide, by decide, by decide, by decide⟩,
    ⟨by decide, by decide, by decide, by decide, by decide⟩⟩

theorem dead_inv : dead.Inv :=
  ⟨⟨by decide, by decide, by decide, by decide⟩, ⟨by decide, by decide, by decide, by decide⟩,
    ⟨by decide, by decide, by decide, by decide, by decide⟩⟩

theorem zeroCap_cursorInv : zeroCap.CursorInv := ⟨by decide, by decide, by decide, by decide⟩

theorem fullMax_cursorInv : fullMax.CursorInv := ⟨by decide, by decide, by decide, by decide⟩

theorem some3_unreadWritten : some3.UnreadWritten := by unfold State.UnreadWritten; decide

/-- A PUSHB and a CHKF.CLR at one edge. -/
theorem some3_commits_clear : Commits some3 (onWR 0x00007703 0x00000017) ⟨none, some (.pushb 0x77), some .chkfClr⟩ :=
  ⟨by decide, by decide, by decide, by decide⟩

/-- A PUSHB that is rejected and a CHKF at one edge (T47). -/
theorem full7_commits_chkf : Commits full7 (onWR 0x00009903 0x00000007) ⟨none, some (.pushb 0x99), some (.chkf .R)⟩ :=
  ⟨by decide, by decide, by decide, by decide⟩

/-- A CHKF and a POPB at one edge. -/
theorem some3_commits_pop : Commits some3 (onWR 0x00000007 0x00000005) ⟨none, some (.chkf .W), some .popb⟩ :=
  ⟨by decide, by decide, by decide, by decide⟩

/-- A PUSHB and a POPB at one edge, accepted both. -/
theorem some3_commits_both : Commits some3 (onWR 0x00007703 0x00000005) ⟨none, some (.pushb 0x77), some .popb⟩ :=
  ⟨by decide, by decide, by decide, by decide⟩

/-- A BIND beside NOPs (T76). -/
theorem none4_commits_bind : Commits none4 ⟨false, some ⟨0x00001001, 0⟩, some ⟨0, ⟨[], rfl⟩⟩, some 0⟩
    ⟨some (.bind 16 0), some (.nop .W), some (.nop .R)⟩ := ⟨by decide, by decide, by decide, by decide⟩

/-! ## Witnesses -/

theorem witness_DecodeOfEncodeIsTheCommand : (Instr.count .W).wellFormed = true := by decide

theorem witness_EncodeOfDecodeIsTheWord : decode .W 0x0000FF03 0 ⟨[], rfl⟩ = .ok (.pushb 0xFF) := by decide

/-- One word for each clause: opcode 8, and opcode 7 on a wrong port, with a reserved field, and legal. -/
theorem witness_DecodeChecksInOrder :
    8 ≤ (opOf 0x00000008).toNat ∧
    ((opOf 0x00000017).toNat < 8 ∧ kindOf 0x00000017 = some .chkfClr ∧ Kind.legalOn .chkfClr .W = false) ∧
    ((opOf 0x00010007).toNat < 8 ∧ kindOf 0x00010007 = some .chkf ∧ Kind.legalOn .chkf .W = true ∧
      0x00010007 &&& Kind.mask .chkf ≠ Kind.pattern .chkf) ∧
    (Kind.legalOn .chkf .W = true ∧ 0x00000007 &&& Kind.mask .chkf = Kind.pattern .chkf) := by decide

theorem witness_UnusedFieldIsReserved :
    (kindOf 0x00000013 = some .pushb ∧ Kind.legalOn .pushb .W = true ∧ ¬ unusedFieldsZero .pushb 0x00000013) ∧
    (kindOf 0x0000FF03 = some .pushb ∧ unusedFieldsZero .pushb 0x0000FF03) := by
  unfold unusedFieldsZero; decide

theorem witness_OperandsAreTheFields :
    decode .W 0x0000FF03 0 ⟨[], rfl⟩ = .ok (.pushb 0xFF) ∧
    decode .C 0x0000FF01 7 ⟨[], rfl⟩ = .ok (.bind 0xFF 7) ∧
    decode .W 0x00010004 0 ⟨[0x5A], rfl⟩ = .ok (.pushn 1 ⟨[0x5A], rfl⟩) ∧
    decode .R 0xFFFF0006 0 ⟨[], rfl⟩ = .ok (.popn 0xFFFF) ∧
    decode .R 0x00000007 0 ⟨[], rfl⟩ = .ok (.chkf .R) ∧
    decode .R 0x00000017 0 ⟨[], rfl⟩ = .ok .chkfClr := by decide

/-- A state for each code and each port. -/
theorem witness_StatusWordFields :
    (State.reset.errcode = .none ∧ State.reset.errport = none) ∧
    ((State.reset.fatalEntry .illegalOpcode .C).errcode = .illegalOpcode ∧
      (State.reset.fatalEntry .illegalOpcode .C).errport = some .C) ∧
    ((State.reset.fatalEntry .wrongPort .W).errcode = .wrongPort ∧
      (State.reset.fatalEntry .wrongPort .W).errport = some .W) ∧
    ((State.reset.fatalEntry .reservedField .R).errcode = .reservedField ∧
      (State.reset.fatalEntry .reservedField .R).errport = some .R) ∧
    (State.reset.fatalEntry .bindConflict .W).errcode = .bindConflict ∧
    (State.reset.fatalEntry .badExponent .C).errcode = .badExponent ∧
    (State.reset.fatalEntry .unbound .W).errcode = .unbound := by decide

/-- The smallest, a middle and the largest buffer. -/
theorem witness_UnreadCountIsModular : zeroCap.CursorInv ∧ some3.CursorInv ∧ fullMax.CursorInv :=
  ⟨zeroCap_cursorInv, some3_inv.cursors, fullMax_cursorInv⟩

theorem witness_ReportedCapacity :
    (zeroCap.CursorInv ∧ zeroCap.exp = 0) ∧ (fullMax.CursorInv ∧ fullMax.exp ≠ 0) :=
  ⟨⟨zeroCap_cursorInv, by decide⟩, fullMax_cursorInv, by decide⟩

theorem witness_ComparatorsMeanTheCount :
    (zeroCap.CursorInv ∧ zeroCap.mask = 0) ∧ (fullMax.CursorInv ∧ fullMax.mask ≠ 0) :=
  ⟨⟨zeroCap_cursorInv, by decide⟩, fullMax_cursorInv, by decide⟩

theorem witness_ResetEdgeValues : ({ onWR 0x00000503 0x0000000C with rst := true } : Edge).rst = true := by decide

theorem witness_ResetMeetsInvariant : 16 ≤ 16 := by decide

theorem witness_CursorInvariantIsKept : some3.CursorInv ∧ ∃ t, step some3 = .next t := ⟨some3_inv.cursors, _, rfl⟩

theorem witness_StepKeepsInvariant : some3.Inv ∧ ∃ t, step some3 = .next t := ⟨some3_inv, _, rfl⟩

theorem witness_StepKeepsUnreadWritten : some3.Inv ∧ some3.UnreadWritten ∧ ∃ t, step some3 = .next t :=
  ⟨some3_inv, some3_unreadWritten, _, rfl⟩

theorem witness_PopsAnswerWrittenBytes :
    some3.Inv ∧ some3.UnreadWritten ∧ some3.fatal = false ∧ some3.bound = true ∧ some3.front ≠ some3.back :=
  ⟨some3_inv, some3_unreadWritten, by decide, by decide, by decide⟩

/-- Two storages that differ in slot 7, which holds no unread byte. -/
theorem witness_HiddenStorageIsNotObservable :
    some3.Inv ∧
    (∀ j < some3.unread.toNat, { some3 with mem := some3.mem.write 0x0107 0xEE }.readSlot (some3.unreadIndex j) =
      some3.readSlot (some3.unreadIndex j)) ∧
    ∃ t, edgeStep some3 (onR 0x00000005) = .next t :=
  ⟨some3_inv, by decide, _, rfl⟩

theorem witness_StepRunsTheLoneCommand :
    ({ some3 with inputs := [onR 0x00000005] } : State).inputs = onR 0x00000005 :: [] ∧ (onR 0x00000005).rst = false ∧
    decodeEdge (onR 0x00000005) = .ok (alone .popb) ∧ Instr.popb.wellFormed = true := by decide

theorem witness_IdleEdgeOnlySilences :
    some3.inputs = [] ∧ ({ some3 with inputs := [Edge.idle] } : State).inputs = Edge.idle :: [] := by decide

theorem witness_BindEdgePerformsBind : ∃ s e d n base, Commits s e d ∧ d.c = some (.bind n base) :=
  ⟨_, _, _, _, _, none4_commits_bind, rfl⟩

theorem witness_EdgeCommitsBothRoles :
    ∃ s e d, Commits s e d ∧ binds d = false ∧ d.r ≠ some (.chkf .R) ∧ d.r ≠ some .chkfClr :=
  ⟨_, _, _, some3_commits_both, by decide, by decide, by decide⟩

theorem witness_FaultIsSerialised :
    (∃ s e d, Commits s e d ∧ binds d = false ∧ d.w = some (.chkf .W)) ∧
    (∃ s e d, Commits s e d ∧ binds d = false ∧ d.r = some (.chkf .R)) ∧
    (∃ s e d, Commits s e d ∧ binds d = false ∧ d.r = some .chkfClr) :=
  ⟨⟨_, _, _, some3_commits_pop, by decide, rfl⟩, ⟨_, _, _, full7_commits_chkf, by decide, rfl⟩,
    ⟨_, _, _, some3_commits_clear, by decide, rfl⟩⟩

theorem witness_NotReadyAcceptsNothing : dead.ready (onR 0x00000005).rst = false ∧ some3.ready true = false := by decide

theorem witness_FatalEntryWritesExactly :
    (onW 0x00000103).rst = false ∧ State.reset.fatal = false ∧
    firstError State.reset (onW 0x00000103) = some (.unbound, .W) := by decide

/-- One edge for each clause (T71, T70, T72; T68, T69, T62, T76; T43, T60, T61, T77). -/
theorem witness_FirstErrorPriority :
    decodeC (some ⟨0x00000002, 0⟩) = .error .wrongPort ∧
    (decodeC none = .ok none ∧ decodeW (some ⟨0x0000000F, ⟨[], rfl⟩⟩) = .error .illegalOpcode) ∧
    (decodeC none = .ok none ∧ decodeW (some ⟨0x00000503, ⟨[], rfl⟩⟩) = .ok (some (.pushb 5)) ∧
      decodeR (some 0x0000000C) = .error .illegalOpcode) ∧
    (decodeEdge ⟨false, some ⟨0x00000401, 0⟩, some ⟨0x00000503, ⟨[], rfl⟩⟩, none⟩ =
      .ok ⟨some (.bind 4 0), some (.pushb 5), none⟩ ∧ active (some (.pushb 5)) = true) ∧
    (decodeEdge ⟨false, some ⟨0x00001401, 0⟩, none, some 0x00000005⟩ = .ok ⟨some (.bind 20 0), none, some .popb⟩ ∧
      active none = false ∧ active (some .popb) = true) ∧
    (decodeEdge (onC 0x00001101 0) = .ok ⟨some (.bind 17 0), none, none⟩ ∧ active none = false ∧ 16 < (17 : Byte).toNat) ∧
    (decodeEdge (onC 0x00001001 0) = .ok ⟨some (.bind 16 0), none, none⟩ ∧ (16 : Byte).toNat ≤ 16) ∧
    (decodeEdge (onW 0x00000103) = .ok ⟨none, some (.pushb 1), none⟩ ∧ binds ⟨none, some (.pushb 1), none⟩ = false ∧
      some3.bound = true ∧ State.reset.bound = false) ∧
    (decodeEdge (onR 0x00000005) = .ok ⟨none, none, some .popb⟩ ∧ binds ⟨none, none, some .popb⟩ = false) ∧
    (decodeEdge (onW 0x00000000) = .ok ⟨none, some (.nop .W), none⟩ ∧ active (some (.nop .W)) = false) := by decide

theorem witness_FatalStateIsFrozen : dead.ControlInv ∧ dead.fatal = true ∧ (onR 0x00000005).rst = false :=
  ⟨dead_inv.control, by decide, by decide⟩

theorem witness_OnlyResetLeavesFatal :
    ∃ t, edgeStep dead Edge.reset = .next t ∧ dead.fatal = true ∧ t.fatal = false := ⟨_, rfl, by decide, by decide⟩

theorem witness_UseBeforeBindingIsFatal :
    State.reset.fatal = false ∧ State.reset.bound = false ∧ Instr.popb.wellFormed = true ∧ Instr.popb.isNop = false ∧
    Instr.popb.port ≠ .C := by decide

/-- The smallest illegal exponent (T62). -/
theorem witness_BadExponentIsFatal : State.reset.fatal = false ∧ 16 < (17 : Byte).toNat := by decide

theorem witness_CursorsHaveOneOwner :
    (∃ t, edgeStep some3 (onWR 0x00007703 0x00000005) = .next t ∧ (onWR 0x00007703 0x00000005).rst = false ∧
      t.back ≠ some3.back ∧ t.front ≠ some3.front) ∧
    (∃ t, edgeStep some3 Edge.reset = .next t ∧ Edge.reset.rst = true) ∧
    (∃ t s e d, edgeStep s e = .next t ∧ Commits s e d ∧ binds d = true) ∧
    kindOf 0x00000103 = some .pushb ∧ kindOf 0x00000017 = some .chkfClr :=
  ⟨⟨_, rfl, by decide, by decide, by decide⟩, ⟨_, rfl, by decide⟩,
    ⟨_, _, _, _, rfl, none4_commits_bind, by decide⟩, by decide, by decide⟩

theorem witness_FaultSetAndClearedBy :
    (∃ t, edgeStep full7 (onW 0x00004203) = .next t ∧ full7.fault = false ∧ t.fault = true) ∧
    (∃ t, edgeStep some3 (onW 0x00000007) = .next t ∧ some3.fault = true ∧ t.fault = false) :=
  ⟨⟨_, rfl, by decide, by decide⟩, ⟨_, rfl, by decide, by decide⟩⟩

theorem witness_BindingAndErrorOwners :
    (∃ t, edgeStep State.reset (onC 0x00000301 0x1000) = .next t ∧ t.bound ≠ State.reset.bound) ∧
    (∃ t, edgeStep State.reset (onR 0x00000005) = .next t ∧ t.errcode ≠ State.reset.errcode) :=
  ⟨⟨_, rfl, by decide⟩, ⟨_, rfl, by decide⟩⟩

/-- Slot 4 is an unread one, so no edge writes it. -/
theorem witness_StorageWrittenOnlyInFreeSlots :
    some3.CursorInv ∧ (∃ t, edgeStep some3 (onW 0x00007703) = .next t) ∧
    ∀ j < some3.free.toNat, 0x0104 ≠ some3.slot (some3.advance some3.back j) :=
  ⟨some3_inv.cursors, ⟨_, rfl⟩, by decide⟩

/-- An edge that stores one byte and reads one, beside a slot it does not store to and a storage that differs in slot 3,
which it does not read; the last free and the last unread slot. -/
theorem witness_WrittenAndReadSlotsAreDisjoint :
    some3.Inv ∧
    (∃ e d t, Commits some3 e d ∧ binds d = false ∧ edgeStep some3 e = .next t ∧ 0 < storedCount some3 d.w ∧
      0 < readCount some3 d.r ∧
      (∀ j < storedCount some3 d.w, 0x0106 ≠ some3.slot (some3.advance some3.back j)) ∧
      ∀ j < readCount some3 d.r,
        { some3 with mem := some3.mem.write 0x0103 0xEE }.readSlot (some3.advance some3.front j) =
          some3.readSlot (some3.advance some3.front j)) ∧
    3 < some3.free.toNat ∧ 2 < some3.unread.toNat :=
  ⟨some3_inv, ⟨_, _, _, some3_commits_both, by decide, rfl, by decide, by decide, by decide, by decide⟩, by decide,
    by decide⟩

/-- The smallest and the largest exponent. -/
theorem witness_BindCompletes : State.reset.fatal = false ∧ (0 : Byte).toNat ≤ 16 ∧ (16 : Byte).toNat ≤ 16 := by decide

theorem witness_ZeroCapacityBuffer :
    State.reset.fatal = false ∧ zeroCap.CursorInv ∧ zeroCap.fatal = false ∧ zeroCap.bound = true ∧ zeroCap.exp = 0 :=
  ⟨by decide, zeroCap_cursorInv, by decide, by decide, by decide⟩

theorem witness_CountCompletes : some3.fatal = false ∧ some3.bound = true := by decide

/-- Accepted with one slot less than full, and rejected when full. -/
theorem witness_PushbCompletes :
    ((at_ 3 0 6 false []).fatal = false ∧ (at_ 3 0 6 false []).bound = true ∧
      (at_ 3 0 6 false []).unread < (at_ 3 0 6 false []).mask) ∧
    (full7.fatal = false ∧ full7.bound = true ∧ ¬ full7.unread < full7.mask) := by decide

/-- Two payload bytes of which both are stored, and slot 2 beside them. -/
theorem witness_PushnCompletes :
    some3.Inv ∧ some3.fatal = false ∧ some3.bound = true ∧ 1 < min (2 : Cursor).toNat some3.free.toNat ∧
    ∀ j < min (2 : Cursor).toNat some3.free.toNat, 0x0102 ≠ some3.slot (some3.advance some3.back j) :=
  ⟨some3_inv, by decide, by decide, by decide, by decide⟩

theorem witness_PopbCompletes :
    (some3.fatal = false ∧ some3.bound = true ∧ some3.front ≠ some3.back) ∧
    (none4.fatal = false ∧ none4.bound = true ∧ none4.front = none4.back) := by decide

theorem witness_PopnCompletes : some3.CursorInv ∧ some3.fatal = false ∧ some3.bound = true :=
  ⟨some3_inv.cursors, by decide, by decide⟩

theorem witness_ChkfCompletes : some3.fatal = false ∧ some3.bound = true := by decide

theorem witness_ChkfClrCompletes : some3.fatal = false ∧ some3.bound = true := by decide

theorem witness_WriterCommandFrame :
    some3.CursorInv ∧ (Instr.pushb 0x77).port = .W ∧ some3.fatal = false ∧ aloneError some3 (.pushb 0x77) = none ∧
    ∃ t, exec (.pushb 0x77) some3 = .next t :=
  ⟨some3_inv.cursors, by decide, by decide, by decide, _, rfl⟩

theorem witness_ReaderCommandFrame :
    Instr.popb.port = .R ∧ some3.fatal = false ∧ aloneError some3 .popb = none ∧ ∃ t, exec .popb some3 = .next t :=
  ⟨by decide, by decide, by decide, _, rfl⟩

/-- One byte more than is free, and one more than is unread. -/
theorem witness_BulkTransfersAreClamped :
    some3.Inv ∧ some3.fatal = false ∧ some3.bound = true ∧ some3.free < 5 ∧ some3.unread < 4 :=
  ⟨some3_inv, by decide, by decide, by decide, by decide⟩

/-- A full buffer, and a command other than PUSHB. -/
theorem witness_OnlyPushbSetsFault :
    full7.fatal = false ∧ full7.bound = true ∧ ¬ full7.unread < full7.mask ∧ ∀ v, Instr.popb ≠ .pushb v :=
  ⟨by decide, by decide, by decide, fun _ h => nomatch h⟩

/-- W then R for a rejected push beside a CHKF, R then W for an accepted push beside a POPB. -/
theorem witness_EdgeIsSequential :
    (∃ s e d, s.Inv ∧ Commits s e d ∧ binds d = false ∧ orderAllowed s d.w d.r true = true) ∧
    (∃ s e d, s.Inv ∧ Commits s e d ∧ binds d = false ∧ orderAllowed s d.w d.r false = true) :=
  ⟨⟨_, _, _, full7_inv, full7_commits_chkf, by decide, by decide⟩,
    ⟨_, _, _, some3_inv, some3_commits_both, by decide, by decide⟩⟩

theorem witness_BulkIsRepeatedBytes : some3.Inv ∧ some3.fatal = false ∧ some3.bound = true :=
  ⟨some3_inv, by decide, by decide⟩

/-- An edge of each kind: a push and a pop, a BIND, a reset, one in FATAL, one in error. -/
theorem witness_EdgeRefinesTheQueue :
    (∃ s e d, s.Inv ∧ Commits s e d ∧ binds d = false) ∧ (∃ s e d, s.Inv ∧ Commits s e d ∧ binds d = true) ∧
    (some3.Inv ∧ Edge.reset.rst = true) ∧ (dead.Inv ∧ dead.fatal = true ∧ Edge.idle.rst = false) ∧
    (some3.Inv ∧ (onR 0x00000008).rst = false ∧ firstError some3 (onR 0x00000008) ≠ none) :=
  ⟨⟨_, _, _, some3_inv, some3_commits_both, by decide⟩, ⟨_, _, _, none4_inv, none4_commits_bind, by decide⟩,
    ⟨some3_inv, by decide⟩, ⟨dead_inv, by decide, by decide⟩, some3_inv, by decide, by decide⟩

/-- A buffer of 2 with two PUSHBs presented. -/
def two : State := { at_ 1 1 1 false [] with inputs := [0xA1, 0xA2].map fun b => Edge.ofInstr (.pushb b) }

theorem witness_UsableCapacityIsReached :
    two.Inv ∧ two.fatal = false ∧ two.bound = true ∧ two.exp ≠ 0 ∧ two.front = two.back ∧
    two.inputs = [0xA1, 0xA2].map (fun b => Edge.ofInstr (.pushb b)) ∧
    ([0xA1, 0xA2] : List Byte).length = 2 ^ two.exp.toNat ∧ 0 < 1 ∧ 1 < 2 ^ two.exp.toNat :=
  ⟨⟨⟨by decide, by decide, by decide, by decide⟩, ⟨by decide, by decide, by decide, by decide⟩,
    ⟨by decide, by decide, by decide, by decide, by decide⟩⟩,
    by decide, by decide, by decide, by decide, rfl, by decide, by decide, by decide⟩

theorem witness_OverflowIsReportedOnce :
    ∃ s : State, s.fatal = false ∧ s.bound = true ∧ ¬ s.unread < s.mask ∧ Port.W ≠ .C ∧ Port.R ≠ .C ∧
      s.inputs = Edge.ofInstr (.pushb 0x42) :: Edge.ofInstr (.chkf .W) :: Edge.ofInstr (.chkf .R) :: [] :=
  ⟨{ full7 with inputs := [Edge.ofInstr (.pushb 0x42), Edge.ofInstr (.chkf .W), Edge.ofInstr (.chkf .R)] },
    by decide, by decide, by decide, by decide, by decide, rfl⟩

theorem witness_ClearLeavesSameEdgePush :
    ∃ s e d, s.Inv ∧ Commits s e d ∧ d.r = some .chkfClr := ⟨_, _, _, some3_inv, some3_commits_clear, rfl⟩

theorem witness_StorageReadAfterWrite : (0x0101 : Nat) ≠ 0x0100 := by decide

end Sys2Proof.Tests
end

section

/-! The statements about the state of the controller (10_state.md): its outputs, what reset and every step keep, who writes
which register, and which storage bytes can be seen. -/

namespace Sys2Proof.Machine

open Sys2Proof.Spec

/-! ### The fields of a word made of placed fields -/

theorem getElem_place {n : Nat} (v : BitVec n) (lo i : Nat) (hi : i < 32) :
    (place v lo)[i] = (decide (lo ≤ i) && v.getLsbD (i - lo)) := by
  rcases Nat.lt_or_ge i lo with hlo | hlo
  · simp [place, hlo, Nat.not_le.mpr hlo]
  · simp [place, hlo, Nat.not_lt.mpr hlo]

theorem extractLsb'_place_same {n lo : Nat} (v : BitVec n) (h : lo + n ≤ 32) :
    (place v lo).extractLsb' lo n = v := by
  ext i hi
  simp [getElem_place, hi, show lo + i < 32 by omega]

theorem extractLsb'_place_off {n lo lo' n' : Nat} (v : BitVec n) (h : lo' + n' ≤ lo ∨ lo + n ≤ lo') :
    (place v lo).extractLsb' lo' n' = 0#n' := by
  ext i hi
  rw [BitVec.getElem_extractLsb', BitVec.getElem_zero]
  rcases Nat.lt_or_ge (lo' + i) 32 with h32 | h32
  · rw [BitVec.getLsbD_eq_getElem h32, getElem_place]
    rcases h with h | h
    · simp [show ¬ lo ≤ lo' + i by omega]
    · simp [BitVec.getLsbD_of_ge v (lo' + i - lo) (by omega)]
  · exact BitVec.getLsbD_of_ge _ _ h32

/-- STATUS[10:8] (10 R39). -/
theorem status_errcode (s : State) : s.status.extractLsb' 8 3 = s.errcode.bits := by
  simp [State.status, BitVec.extractLsb'_or, extractLsb'_place_same, extractLsb'_place_off]

/-- STATUS[12:11] (10 R39). -/
theorem status_errport (s : State) : s.status.extractLsb' 11 2 = Port.codeOrNone s.errport := by
  simp [State.status, BitVec.extractLsb'_or, extractLsb'_place_same, extractLsb'_place_off]

/-- STATUS[20:16] (10 R39). -/
theorem status_exp (s : State) : s.status.extractLsb' 16 5 = s.exp := by
  simp [State.status, BitVec.extractLsb'_or, extractLsb'_place_same, extractLsb'_place_off]

/-- The bits of no field read 0 (10 R39). -/
theorem status_unused (s : State) :
    s.status.extractLsb' 5 3 = 0#3 ∧ s.status.extractLsb' 13 3 = 0#3 ∧ s.status.extractLsb' 21 11 = 0#11 := by
  simp [State.status, BitVec.extractLsb'_or, extractLsb'_place_off]

/-- The five flags in STATUS[4:0] (10 R39). -/
theorem status_flags (s : State) :
    s.status.getLsbD 0 = s.empty ∧ s.status.getLsbD 1 = s.full ∧ s.status.getLsbD 2 = s.fault ∧
    s.status.getLsbD 3 = s.bound ∧ s.status.getLsbD 4 = s.fatal := by
  simp [State.status, getElem_place, bit]

theorem snap_front (s : State) : s.snap.extractLsb' 0 16 = s.front := by
  simp [State.snap, BitVec.extractLsb'_or, extractLsb'_place_same, extractLsb'_place_off]

theorem snap_back (s : State) : s.snap.extractLsb' 16 16 = s.back := by
  simp [State.snap, BitVec.extractLsb'_or, extractLsb'_place_same, extractLsb'_place_off]

/-! ### The derived signals under the cursors' invariant (10 R30 to R35) -/

namespace State.CursorInv

variable {s : State}

theorem mask_toNat (h : s.CursorInv) : s.mask.toNat = 2 ^ s.exp.toNat - 1 := by
  rw [← h.slots_eq, State.slots, Nat.add_sub_cancel]

theorem unread_le_mask (h : s.CursorInv) : s.unread.toNat ≤ s.mask.toNat :=
  Nat.le_of_lt_succ h.unread_lt

theorem empty_iff (h : s.CursorInv) : s.empty = true ↔ s.unread = 0 := by
  rw [State.empty, beq_iff_eq, ← h.unread_eq_zero_iff, ← BitVec.toNat_inj]
  rfl

theorem full_eq_false_iff (h : s.CursorInv) : s.full = false ↔ s.unread < s.mask := by
  have hle := h.unread_le_mask
  rw [State.full, beq_eq_false_iff_ne, Ne, ← BitVec.toNat_inj, BitVec.lt_def]
  omega

/-- A state whose cursors, mask and exponent are 0 meets the cursors' invariant, as after reset (10 R44). -/
theorem of_zero (he : s.exp = 0) (hm : s.mask = 0) (hf : s.front = 0) (hb : s.back = 0) : s.CursorInv := by
  refine ⟨?_, ?_, ?_, ?_⟩ <;> simp [he, hm, hf, hb]

end State.CursorInv

theorem unread_eq_zero_of_mask {s : State} (hm : s.mask = 0) : s.unread = 0 := by
  simp [State.unread, hm]

theorem unread_eq_zero_of_cursors {s : State} (h : s.front = s.back) : s.unread = 0 := by
  simp [State.unread, h]

/-! ### The step is an edge, and an outcome determines what an edge answers -/

/-- A step takes one line off the pending inputs (log entry 2). -/
theorem nextEdge_state (s : State) : s.nextEdge.2 = { s with inputs := s.inputs.drop 1 } := by
  unfold State.nextEdge
  split
  · rename_i h; rw [h, List.drop_nil, ← h]
  · rename_i e rest h; rw [h]; rfl

/-- What a step can do: what some edge can. -/
theorem step_cases {s t : State} (h : step s = .next t) :
    EdgeOutcome { s with inputs := s.inputs.drop 1 } s.nextEdge.1 t :=
  nextEdge_state s ▸ edgeStep_cases h

theorem firstError_of_decoded {s : State} {e : Edge} {d : Accepted} (hd : decodeEdge e = .ok d) :
    firstError s e = semanticError s d := by
  simp [firstError, hd]

/-- An edge that commits does what its commands do together (20 R60). -/
theorem edgeStep_of_commits {s : State} {e : Edge} {d : Accepted} (h : Commits s e d) :
    edgeStep s e = commit s d := by
  simp [edgeStep, h.noReset, h.noFatal, h.decoded, h.noError]

theorem commit_of_bind {s : State} {e : Edge} {d : Accepted} (h : Commits s e d) {n : Byte} {b : Nat}
    (hc : d.c = some (.bind n b)) : commit s d = .next (effect (.bind n b) s.quiet) := by
  rcases commit_ok h.noFatal (decodeEdge_onPorts h.decoded) h.noError with ⟨n', b', hc', -, -, -, hcommit⟩ | ⟨hc', -⟩
  · cases hc.symm.trans hc'; exact hcommit
  · exact absurd hc (hc' n b)

theorem commit_of_ports {s : State} {e : Edge} {d : Accepted} (h : Commits s e d)
    (hc : ∀ n b, d.c ≠ some (.bind n b)) :
    commit s d = .next (mergePorts s (portEffect d.w s.quiet) (portEffect d.r (afterW s d.w))) := by
  rcases commit_ok h.noFatal (decodeEdge_onPorts h.decoded) h.noError with ⟨n, b, hc', -⟩ | ⟨-, hcommit⟩
  · exact absurd hc' (hc n b)
  · exact hcommit

/-- The converse of `edgeStep_cases`: a described outcome is what the edge answers. -/
theorem EdgeOutcome.edgeStep_eq {s t : State} {e : Edge} (o : EdgeOutcome s e t) : edgeStep s e = .next t := by
  cases o with
  | reset hr ht => simp [edgeStep, hr, ht]
  | frozen hr hf ht => simp [edgeStep, hr, hf, ht]
  | error hr hf x p hx ht =>
    subst ht
    cases hd : decodeEdge e with
    | error y => simp_all [edgeStep, firstError]
    | ok d => rw [firstError_of_decoded hd] at hx; simp [edgeStep, hr, hf, hd, hx]
  | bind hr hf d hd hs n b hc hn hw hv ht =>
    have h : Commits s e d := ⟨hr, hf, hd, hs⟩
    rw [edgeStep_of_commits h, commit_of_bind h hc, ht]
  | ports hr hf d hd hs hc ht =>
    have h : Commits s e d := ⟨hr, hf, hd, hs⟩
    rw [edgeStep_of_commits h, commit_of_ports h hc, ht]

theorem eq_resetEdge_of_reset {s t : State} {e : Edge} (h : edgeStep s e = .next t) (hr : e.rst = true) :
    t = s.resetEdge := by
  rw [(EdgeOutcome.reset hr rfl).edgeStep_eq] at h
  injection h with h
  exact h.symm

theorem eq_effect_of_bind {s t : State} {e : Edge} (h : edgeStep s e = .next t) {d : Accepted} (hd : Commits s e d)
    {n : Byte} {b : Nat} (hc : d.c = some (.bind n b)) : t = effect (.bind n b) s.quiet := by
  rw [edgeStep_of_commits hd, commit_of_bind hd hc] at h
  injection h with h
  exact h.symm

theorem binds_iff (d : Accepted) : binds d = true ↔ ∃ n b, d.c = some (.bind n b) := by
  constructor
  · intro h
    unfold binds at h
    split at h
    · rename_i n b hc; exact ⟨n, b, hc⟩
    · cases h
  · rintro ⟨n, b, hc⟩
    simp [binds, hc]

/-! ### Edges that accept nothing but NOP -/

theorem portEffect_of_inactive {i : Option Instr} (h : active i = false) (s : State) : portEffect i s = s := by
  cases i with
  | none => rfl
  | some i =>
    cases i with
    | nop p => rfl
    | _ => cases h

/-- While BOUND = 0 an edge that is in no error and binds nothing accepts only NOPs (60 R182). -/
theorem inactive_of_unbound {s : State} {d : Accepted} (hs : semanticError s d = none)
    (hc : ∀ n b, d.c ≠ some (.bind n b)) (hb : s.bound = false) : active d.w = false ∧ active d.r = false := by
  unfold semanticError at hs
  split at hs
  · rename_i n b h; exact absurd h (hc n b)
  · cases hw : active d.w <;> cases hr : active d.r <;> simp_all

/-- An edge at which nothing is presented only silences the responses (10 R41, log entry 2). -/
theorem edgeStep_idle (s : State) : edgeStep s Edge.idle = .next s.quiet := by
  cases hf : s.fatal with
  | true => exact (EdgeOutcome.frozen rfl hf rfl).edgeStep_eq
  | false =>
    have hs : semanticError s ⟨none, none, none⟩ = none := by simp [semanticError, active]
    exact (EdgeOutcome.ports rfl hf ⟨none, none, none⟩ rfl hs (by simp) rfl).edgeStep_eq

end Sys2Proof.Machine
end

section

/-! The invariants of the registers, the storage list and the written bytes: each edge keeps them (10 R36, R41, R43). -/

namespace Sys2Proof.Machine

/-! ### The cursors' invariant (10 R36) -/

theorem portEffect_cursorInv {s : State} (h : s.CursorInv) {i : Option Instr} (hi : ∀ n b, i ≠ some (.bind n b)) :
    (portEffect i s).CursorInv := by
  cases i with
  | none => exact h
  | some i => exact effect_cursorInv h fun n b hb => absurd (congrArg some hb) (hi n b)

theorem mergePorts_cursorInv {s sW sR : State} (h : s.CursorInv) (hW : sW.CursorInv) (hR : sR.CursorInv)
    (mW : sW.mask = s.mask) (mR : sR.mask = s.mask) : (mergePorts s sW sR).CursorInv :=
  ⟨h.exp, h.mask, mR ▸ hR.front, mW ▸ hW.back⟩

theorem EdgeOutcome.cursorInv {s t : State} {e : Edge} (o : EdgeOutcome s e t) (h : s.CursorInv) : t.CursorInv := by
  have hq : s.quiet.CursorInv := ⟨h.exp, h.mask, h.front, h.back⟩
  cases o with
  | reset hr ht => subst ht; exact .of_zero rfl rfl rfl rfl
  | frozen hr hf ht => subst ht; exact hq
  | error hr hf x p hx ht => subst ht; exact ⟨h.exp, h.mask, h.front, h.back⟩
  | bind hr hf d hd hs n b hc hn hw hv ht =>
    subst ht
    exact effect_cursorInv hq fun m c hm => by cases hm; exact hn
  | ports hr hf d hd hs hc ht =>
    subst ht
    have hp := decodeEdge_onPorts hd
    have ha : (afterW s d.w).CursorInv := ⟨h.exp, h.mask, h.front, h.back⟩
    have mW := congrArg State.mask (portEffect_on_W (fun j hj => (hp.w j hj).1) s.quiet)
    have mR := congrArg State.mask (portEffect_on_R (fun j hj => (hp.r j hj).1) (afterW s d.w))
    exact mergePorts_cursorInv h (portEffect_cursorInv hq fun n b => (hp.noBind n b).1)
      (portEffect_cursorInv ha fun n b => (hp.noBind n b).2) mW mR

/-! ### The storage list -/

theorem portEffect_storage {s : State} (h : s.StorageInv) (i : Option Instr) : (portEffect i s).StorageInv := by
  cases i with
  | none => exact h
  | some i => exact effect_storage h

theorem EdgeOutcome.storageInv {s t : State} {e : Edge} (o : EdgeOutcome s e t) (h : s.StorageInv) :
    t.StorageInv := by
  have hq : s.quiet.StorageInv := ⟨h.addrW, h.base, h.memWf, h.memFits⟩
  cases o with
  | reset hr ht => subst ht; exact ⟨h.addrW, Nat.two_pow_pos _, h.memWf, h.memFits⟩
  | frozen hr hf ht => subst ht; exact hq
  | error hr hf x p hx ht => subst ht; exact ⟨h.addrW, h.base, h.memWf, h.memFits⟩
  | bind hr hf d hd hs n b hc hn hw hv ht => subst ht; exact effect_storage hq
  | ports hr hf d hd hs hc ht =>
    subst ht
    have hW := portEffect_storage hq d.w
    have aW := congrArg State.addrW (portEffect_on_W (fun j hj => ((decodeEdge_onPorts hd).w j hj).1) s.quiet)
    exact ⟨h.addrW, h.base, hW.memWf, fun c hc => Nat.lt_of_lt_of_eq (hW.memFits c hc) (congrArg (2 ^ ·) aW)⟩

/-! ### The control registers and the payload -/

/-- No command answers more bytes than a LEN field counts (30 R92). -/
theorem effect_payload {s : State} (h : s.rspPayR.length ≤ 65535) (i : Instr) :
    (effect i s).rspPayR.length ≤ 65535 := by
  cases i with
  | nop p => exact h
  | bind n b => exact h
  | count p =>
    cases p with
    | C | W => exact h
    | R => exact Nat.zero_le _
  | pushb v => simp only [effect]; split <;> exact h
  | pushn len pay => exact h
  | popb => simp only [effect]; split <;> exact Nat.zero_le _
  | popn len =>
    have hlen := len.isLt
    simp only [effect, readSplit_length, clamp]
    omega
  | chkf p =>
    cases p with
    | C | W => exact h
    | R => exact Nat.zero_le _
  | chkfClr => exact Nat.zero_le _

theorem portEffect_payload {s : State} (h : s.rspPayR.length ≤ 65535) (i : Option Instr) :
    (portEffect i s).rspPayR.length ≤ 65535 := by
  cases i with
  | none => exact h
  | some i => exact effect_payload h i

/-- A state that is not in FATAL and records no error has the control invariant if it does so while unbound. -/
theorem State.ControlInv.of_running {s : State} (hf : s.fatal = false) (he : s.errcode = .none ∧ s.errport = none)
    (hu : s.bound = false → s.exp = 0 ∧ s.base = 0 ∧ s.fault = false) (hp : s.rspPayR.length ≤ 65535) :
    s.ControlInv :=
  ⟨hu, fun _ => he, fun h => absurd (hf.symm.trans h) (by decide), fun h => absurd (hf.symm.trans h) (by decide), hp⟩

theorem EdgeOutcome.controlInv {s t : State} {e : Edge} (o : EdgeOutcome s e t) (h : s.ControlInv) :
    t.ControlInv := by
  cases o with
  | reset hr ht => subst ht; exact .of_running rfl ⟨rfl, rfl⟩ (fun _ => ⟨rfl, rfl, rfl⟩) (Nat.zero_le _)
  | frozen hr hf ht => subst ht; exact ⟨h.unbound, h.noError, h.error, fun _ => ⟨rfl, rfl, rfl⟩, h.payload⟩
  | error hr hf x p hx ht =>
    subst ht
    exact ⟨h.unbound, fun hf' => absurd hf' (by simp), fun _ => ⟨firstError_ne_none hx, by simp⟩,
      fun _ => ⟨rfl, rfl, rfl⟩, h.payload⟩
  | bind hr hf d hd hs n b hc hn hw hv ht =>
    subst ht
    exact .of_running hf (h.noError hf) (fun hb => absurd hb (by simp [effect])) h.payload
  | ports hr hf d hd hs hc ht =>
    subst ht
    refine .of_running hf (h.noError hf) (fun hb => ?_) (portEffect_payload (s := afterW s d.w) h.payload d.r)
    obtain ⟨hw, hr'⟩ := inactive_of_unbound hs hc hb
    obtain ⟨hexp, hbase, hfault⟩ := h.unbound hb
    refine ⟨hexp, hbase, ?_⟩
    rw [mergePorts_fault, portEffect_of_inactive hr']
    show (portEffect d.w s.quiet).fault = false
    rw [portEffect_of_inactive hw]
    exact hfault

theorem EdgeOutcome.inv {s t : State} {e : Edge} (o : EdgeOutcome s e t) (h : s.Inv) : t.Inv :=
  ⟨o.storageInv h.storage, o.cursorInv h.cursors, o.controlInv h.control⟩

/-- Taking a line off the pending inputs touches no invariant. -/
theorem State.Inv.withInputs {s : State} (h : s.Inv) (es : List Edge) : ({ s with inputs := es } : State).Inv :=
  ⟨⟨h.storage.addrW, h.storage.base, h.storage.memWf, h.storage.memFits⟩,
    ⟨h.cursors.exp, h.cursors.mask, h.cursors.front, h.cursors.back⟩,
    ⟨h.control.unbound, h.control.noError, h.control.error, h.control.silent, h.control.payload⟩⟩

/-! ### The unread bytes were written (10 R43) -/

theorem unreadWritten_of_unread_eq_zero {s : State} (h : s.unread = 0) : s.UnreadWritten := by
  intro j hj
  rw [h] at hj
  exact absurd hj (Nat.not_lt_zero j)

/-- The unread bytes that stay were written before, and those that join are the ones just stored. -/
theorem RingMove.unreadWritten {s t : State} {bs : List Byte} {k : Nat} (r : RingMove s t bs k) (h : s.CursorInv)
    (ht : t.CursorInv) (hw : 16 ≤ s.addrW) (hu : s.UnreadWritten) : t.UnreadWritten := by
  intro j hj
  have hcount := r.unread h ht
  rcases Nat.lt_or_ge j (s.unread.toNat - k) with hold | hnew
  · rw [r.read_old h hw j hold]
    exact hu (k + j) (by omega)
  · rw [r.read_new h j hnew (by omega)]
    rfl

theorem EdgeOutcome.unreadWritten {s t : State} {e : Edge} (o : EdgeOutcome s e t) (h : s.Inv)
    (hu : s.UnreadWritten) : t.UnreadWritten := by
  cases o with
  | reset hr ht => subst ht; exact unreadWritten_of_unread_eq_zero (unread_eq_zero_of_cursors rfl)
  | frozen hr hf ht => subst ht; exact hu
  | error hr hf x p hx ht => subst ht; exact hu
  | bind hr hf d hd hs n b hc hn hw hv ht =>
    subst ht; exact unreadWritten_of_unread_eq_zero (unread_eq_zero_of_cursors rfl)
  | ports hr hf d hd hs hc ht =>
    have ht' : t.CursorInv := (EdgeOutcome.ports hr hf d hd hs hc ht).cursorInv h.cursors
    subst ht
    exact (ports_ring h.cursors h.storage.addrW (decodeEdge_onPorts hd)).unreadWritten h.cursors ht'
      h.storage.addrW hu

/-! ### Storage that is not unread cannot be seen (10 R42, R43) -/

theorem queue_of_cursors {s : State} (h : s.front = s.back) : s.queue = [] := by
  simp [State.queue, unread_eq_zero_of_cursors h]

/-- Another storage holds the same queue exactly if it agrees on every unread byte. -/
theorem queue_withMem_eq_iff (s : State) (m : Mem) :
    ({ s with mem := m } : State).queue = s.queue ↔
      ∀ j < s.unread.toNat, { s with mem := m }.readSlot (s.unreadIndex j) = s.readSlot (s.unreadIndex j) := by
  unfold State.queue
  exact List.map_inj_left.trans (forall_congr' fun j => imp_congr_left List.mem_range)

theorem firstError_withMem (s : State) (m : Mem) (e : Edge) : firstError { s with mem := m } e = firstError s e := rfl

/-- The merged effects of a W and an R command on another storage with the same queue: the same state but for the
storage. -/
theorem mergePorts_withMem {s : State} (h : s.CursorInv) {d : Accepted} (hp : d.OnPorts) {m : Mem}
    (hm : ({ s with mem := m } : State).queue = s.queue) :
    ∃ m', mergePorts { s with mem := m } (portEffect d.w ({ s with mem := m } : State).quiet)
        (portEffect d.r (afterW { s with mem := m } d.w)) =
      { mergePorts s (portEffect d.w s.quiet) (portEffect d.r (afterW s d.w)) with mem := m' } := by
  obtain ⟨m', hW⟩ := portEffect_W_mem (fun j hj => (hp.w j hj).1) s.quiet m
  have ha : (afterW s d.w).CursorInv := ⟨h.exp, h.mask, h.front, h.back⟩
  have hR := portEffect_R_mem ha (fun j hj => (hp.r j hj).1) m fun _ j hj =>
    (queue_withMem_eq_iff s m).mp hm j (Nat.lt_of_lt_of_le hj (removedCount_le_unread ha d.r))
  have hafter : afterW { s with mem := m } d.w = { afterW s d.w with mem := m } := by
    show ({ s.quiet with mem := m, fault := (portEffect d.w { s.quiet with mem := m }).fault } : State) = _
    rw [hW]; rfl
  refine ⟨m', ?_⟩
  rw [hafter, hR]
  show mergePorts { s with mem := m } (portEffect d.w { s.quiet with mem := m }) _ = _
  rw [hW]; rfl

/-- An edge on another storage with the same queue answers the same registers, and leaves the same queue. -/
theorem EdgeOutcome.withMem {s t : State} {e : Edge} (o : EdgeOutcome s e t) (h : s.Inv) {m : Mem}
    (hm : ({ s with mem := m } : State).queue = s.queue) :
    ∃ m', EdgeOutcome { s with mem := m } e { t with mem := m' } ∧
      ({ t with mem := m' } : State).queue = t.queue := by
  cases o with
  | reset hr ht => subst ht; exact ⟨m, .reset hr rfl, (queue_of_cursors rfl).trans (queue_of_cursors rfl).symm⟩
  | frozen hr hf ht => subst ht; exact ⟨m, .frozen hr hf rfl, hm⟩
  | error hr hf x p hx ht =>
    subst ht; exact ⟨m, .error hr hf x p ((firstError_withMem s m e).trans hx) rfl, hm⟩
  | bind hr hf d hd hs n b hc hn hw hv ht =>
    subst ht
    exact ⟨m, .bind hr hf d hd hs n b hc hn hw hv rfl, (queue_of_cursors rfl).trans (queue_of_cursors rfl).symm⟩
  | ports hr hf d hd hs hc ht =>
    have hp := decodeEdge_onPorts hd
    have hs' : ({ s with mem := m } : State).CursorInv :=
      ⟨h.cursors.exp, h.cursors.mask, h.cursors.front, h.cursors.back⟩
    have htc := (EdgeOutcome.ports hr hf d hd hs hc ht).cursorInv h.cursors
    subst ht
    obtain ⟨m', hmerge⟩ := mergePorts_withMem h.cursors hp hm
    have o' : EdgeOutcome { s with mem := m } e _ := .ports hr hf d hd hs hc hmerge.symm
    have r := ports_ring h.cursors h.storage.addrW hp
    have r' := ports_ring hs' h.storage.addrW hp
    rw [hmerge] at r'
    refine ⟨m', o', ?_⟩
    rw [r.queue h.cursors htc h.storage.addrW, r'.queue hs' (o'.cursorInv hs') h.storage.addrW, hm]
    rfl

end Sys2Proof.Machine
end

section

/-! Who writes which register: what a command changes and what it leaves (10 R27, R37), and the edges that change a
register outside reset. -/

namespace Sys2Proof.Machine

open Sys2Proof.Spec

/-! ### The registers a port's command changes -/

theorem portEffect_back_ne {i : Option Instr} {s : State} (h : (portEffect i s).back ≠ s.back) :
    (∃ v, i = some (.pushb v)) ∨ (∃ len pay, i = some (.pushn len pay)) ∨ ∃ n b, i = some (.bind n b) := by
  cases i with
  | none => exact absurd rfl h
  | some i =>
    cases i with
    | pushb v => exact .inl ⟨v, rfl⟩
    | pushn len pay => exact .inr (.inl ⟨len, pay, rfl⟩)
    | bind n b => exact .inr (.inr ⟨n, b, rfl⟩)
    | popb => refine absurd ?_ h; simp only [portEffect, effect]; split <;> rfl
    | count p | chkf p => exact absurd (respond_back ..) h
    | _ => exact absurd rfl h

theorem portEffect_front_ne {i : Option Instr} {s : State} (h : (portEffect i s).front ≠ s.front) :
    i = some .popb ∨ (∃ len, i = some (.popn len)) ∨ i = some .chkfClr ∨ ∃ n b, i = some (.bind n b) := by
  cases i with
  | none => exact absurd rfl h
  | some i =>
    cases i with
    | popb => exact .inl rfl
    | popn len => exact .inr (.inl ⟨len, rfl⟩)
    | chkfClr => exact .inr (.inr (.inl rfl))
    | bind n b => exact .inr (.inr (.inr ⟨n, b, rfl⟩))
    | pushb v => refine absurd ?_ h; simp only [portEffect, effect]; split <;> rfl
    | count p | chkf p => exact absurd (respond_front ..) h
    | _ => exact absurd rfl h

/-- FAULT is set by a rejected PUSHB, and cleared by CHKF, CHKF.CLR and BIND (10 R27). -/
theorem portEffect_fault_ne {i : Option Instr} {s : State} (h : (portEffect i s).fault ≠ s.fault) :
    (∃ v, i = some (.pushb v) ∧ ¬ s.unread < s.mask ∧ (portEffect i s).fault = true) ∨
    (((∃ p, i = some (.chkf p)) ∨ i = some .chkfClr ∨ ∃ n b, i = some (.bind n b)) ∧
      (portEffect i s).fault = false) := by
  have hf := portEffect_fault i s
  cases i with
  | none => exact absurd rfl h
  | some i =>
    cases i with
    | pushb v =>
      by_cases hlt : s.unread < s.mask
      · exact absurd (hf.trans (if_pos hlt)) h
      · exact .inl ⟨v, rfl, hlt, hf.trans (if_neg hlt)⟩
    | chkf p => exact .inr ⟨.inl ⟨p, rfl⟩, hf⟩
    | chkfClr => exact .inr ⟨.inr (.inl rfl), hf⟩
    | bind n b => exact .inr ⟨.inr (.inr ⟨n, b, rfl⟩), hf⟩
    | _ => exact absurd hf h

/-! ### The storage a port's command writes -/

theorem storedBytes_eq_nil {i : Instr} (hb : ∀ v, i ≠ .pushb v) (hn : ∀ len pay, i ≠ .pushn len pay) (s : State) :
    storedBytes s (some i) = [] := by
  cases i with
  | pushb v => exact absurd rfl (hb v)
  | pushn len pay => exact absurd rfl (hn len pay)
  | _ => rfl

theorem storedBytes_pushb_length_le (s : State) (v : Byte) : (storedBytes s (some (.pushb v))).length ≤ 1 := by
  simp only [storedBytes]
  split <;> simp

theorem readByte_congr {s t : State} {a : Nat} (h : t.mem.read a = s.mem.read a) : t.readByte a = s.readByte a := by
  rw [State.readByte, State.readByte, h]

/-- A W command writes no address but the slots of the bytes it stores, the first at BACK. -/
theorem portEffect_readByte_off {s : State} (h : s.CursorInv) {w : Option Instr} (hp : ∀ j, w = some j → j.port = .W)
    {a : Nat} (ha : ∀ j < (storedBytes s w).length, a ≠ s.slot (s.advance s.back j)) :
    (portEffect w s).readByte a = s.readByte a := by
  apply readByte_congr
  rw [portEffect_mem h hp]
  exact writeMasked_read_off s h s.back h.back_lt (storedBytes s w) a ha

/-! ### A command alone at an edge -/

theorem eq_effect_of_exec {i : Instr} {s t : State} (hf : s.fatal = false) (he : aloneError s i = none)
    (h : exec i s = .next t) : t = portEffect (some i) s.quiet := by
  rw [exec_of_ok hf he] at h
  injection h with h
  exact h.symm

/-- A command other than NOP that W or R may present, in a bound state without error. -/
theorem exec_of_bound {i : Instr} {s : State} (hw : i.wellFormed = true) (hn : i.isNop = false) (hc : i.port ≠ .C)
    (hf : s.fatal = false) (hb : s.bound = true) : exec i s = .next (effect i s.quiet) :=
  exec_of_ok hf (by rw [aloneError_role hw hn hc, hb]; rfl)

/-- What is read at an unread slot is the byte written there (10 R43). -/
theorem State.UnreadWritten.read_eq {s : State} (h : s.UnreadWritten) {j : Nat} (hj : j < s.unread.toNat) :
    s.mem.read (s.slot (s.unreadIndex j)) = some (s.readSlot (s.unreadIndex j)) := by
  obtain ⟨v, hv⟩ := Option.isSome_iff_exists.mp (h j hj)
  rw [State.readSlot, State.readByte, hv]
  rfl

/-- POPN's payload is the oldest unread bytes, in order (42 R162). -/
theorem effect_popn_payload {s : State} (h : s.CursorInv) (len : Cursor) :
    (effect (.popn len) s).rspPayR = (List.range (clamp len s.unread)).map fun j => s.readSlot (s.unreadIndex j) :=
  readSplit_eq_map s h s.front h.front_lt _ (Nat.lt_of_le_of_lt (Nat.min_le_right _ _) h.unread_lt)

/-! ### The edges that change a register -/

/-- Outside reset, BACK, FRONT and FAULT change only at an edge that commits: with a BIND, or by the commands of W and
R. -/
theorem EdgeOutcome.commits_of_changed {s t : State} {e : Edge} (o : EdgeOutcome s e t) (hr : e.rst = false)
    (h : t.back ≠ s.back ∨ t.front ≠ s.front ∨ t.fault ≠ s.fault) :
    ∃ d, Commits s e d ∧ ((∃ n b, d.c = some (.bind n b) ∧ t = effect (.bind n b) s.quiet) ∨
      t = mergePorts s (portEffect d.w s.quiet) (portEffect d.r (afterW s d.w))) := by
  cases o with
  | reset hr' ht => exact absurd (hr.symm.trans hr') (by decide)
  | frozen hr hf ht => subst ht; simp at h
  | error hr hf x p hx ht => subst ht; simp at h
  | bind hr hf d hd hs n b hc hn hw hv ht => exact ⟨d, ⟨hr, hf, hd, hs⟩, .inl ⟨n, b, hc, ht⟩⟩
  | ports hr hf d hd hs hc ht => exact ⟨d, ⟨hr, hf, hd, hs⟩, .inr ht⟩

theorem EdgeOutcome.back_owner {s t : State} {e : Edge} (o : EdgeOutcome s e t) (hr : e.rst = false)
    (h : t.back ≠ s.back) :
    ∃ d, Commits s e d ∧
      (binds d = true ∨ (∃ v, d.w = some (.pushb v)) ∨ ∃ len pay, d.w = some (.pushn len pay)) := by
  obtain ⟨d, hd, ⟨n, b, hc, -⟩ | ht⟩ := o.commits_of_changed hr (.inl h)
  · exact ⟨d, hd, .inl ((binds_iff d).mpr ⟨n, b, hc⟩)⟩
  · rw [ht] at h
    rcases portEffect_back_ne (i := d.w) (s := s.quiet) h with hb | hn | ⟨n, b, hc⟩
    · exact ⟨d, hd, .inr (.inl hb)⟩
    · exact ⟨d, hd, .inr (.inr hn)⟩
    · exact absurd hc ((decodeEdge_onPorts hd.decoded).noBind n b).1

theorem EdgeOutcome.front_owner {s t : State} {e : Edge} (o : EdgeOutcome s e t) (hr : e.rst = false)
    (h : t.front ≠ s.front) :
    ∃ d, Commits s e d ∧
      (binds d = true ∨ d.r = some .popb ∨ (∃ len, d.r = some (.popn len)) ∨ d.r = some .chkfClr) := by
  obtain ⟨d, hd, ⟨n, b, hc, -⟩ | ht⟩ := o.commits_of_changed hr (.inr (.inl h))
  · exact ⟨d, hd, .inl ((binds_iff d).mpr ⟨n, b, hc⟩)⟩
  · rw [ht] at h
    rcases portEffect_front_ne (i := d.r) (s := afterW s d.w) h with hb | hn | hx | ⟨n, b, hc⟩
    · exact ⟨d, hd, .inr (.inl hb)⟩
    · exact ⟨d, hd, .inr (.inr (.inl hn))⟩
    · exact ⟨d, hd, .inr (.inr (.inr hx))⟩
    · exact absurd hc ((decodeEdge_onPorts hd.decoded).noBind n b).2

/-- When FAULT rises, W's PUSHB was rejected: R's command, which comes second, never sets it (20 R62). -/
theorem EdgeOutcome.fault_set {s t : State} {e : Edge} (o : EdgeOutcome s e t) (hr : e.rst = false)
    (hs : s.fault = false) (ht : t.fault = true) :
    ∃ d v, Commits s e d ∧ d.w = some (.pushb v) ∧ ¬ s.unread < s.mask := by
  obtain ⟨d, hd, ⟨n, b, -, rfl⟩ | rfl⟩ := o.commits_of_changed hr (.inr (.inr (by simp [hs, ht])))
  · exact absurd ht (by simp [effect])
  · have hp := decodeEdge_onPorts hd.decoded
    rw [mergePorts_fault] at ht
    have hW : (portEffect d.w s.quiet).fault = true := by
      by_contra hne
      rcases portEffect_fault_ne (i := d.r) (s := afterW s d.w) (fun heq => hne (heq.symm.trans ht)) with
        ⟨v, hv, -⟩ | ⟨-, hcleared⟩
      · exact absurd (hp.r _ hv).1 (by simp [Instr.port])
      · exact absurd (ht.symm.trans hcleared) (by decide)
    rcases portEffect_fault_ne (i := d.w) (s := s.quiet) (by simp [hW, hs]) with ⟨v, hv, hfull, -⟩ | ⟨-, hcleared⟩
    · exact ⟨d, v, hd, hv, hfull⟩
    · exact absurd (hW.symm.trans hcleared) (by decide)

theorem EdgeOutcome.fault_cleared {s t : State} {e : Edge} (o : EdgeOutcome s e t) (hr : e.rst = false)
    (hs : s.fault = true) (ht : t.fault = false) :
    ∃ d, Commits s e d ∧
      (binds d = true ∨ d.w = some (.chkf .W) ∨ d.r = some (.chkf .R) ∨ d.r = some .chkfClr) := by
  obtain ⟨d, hd, ⟨n, b, hc, -⟩ | rfl⟩ := o.commits_of_changed hr (.inr (.inr (by simp [hs, ht])))
  · exact ⟨d, hd, .inl ((binds_iff d).mpr ⟨n, b, hc⟩)⟩
  · have hp := decodeEdge_onPorts hd.decoded
    rw [mergePorts_fault] at ht
    refine ⟨d, hd, .inr ?_⟩
    cases hW : (portEffect d.w s.quiet).fault with
    | true =>
      rcases portEffect_fault_ne (i := d.r) (s := afterW s d.w) (by rw [ht]; simp [afterW, hW]) with
        ⟨v, -, -, hset⟩ | ⟨⟨p, hv⟩ | hv | ⟨n, b, hv⟩, -⟩
      · exact absurd (hset.symm.trans ht) (by decide)
      · obtain rfl : p = .R := (hp.r _ hv).1
        exact .inr (.inl hv)
      · exact .inr (.inr hv)
      · exact absurd hv (hp.noBind n b).2
    | false =>
      rcases portEffect_fault_ne (i := d.w) (s := s.quiet) (by simp [hW, hs]) with
        ⟨v, -, -, hset⟩ | ⟨⟨p, hv⟩ | hv | ⟨n, b, hv⟩, -⟩
      · exact absurd (hset.symm.trans hW) (by decide)
      · obtain rfl : p = .W := (hp.w _ hv).1
        exact .inl hv
      · exact absurd (hp.w _ hv).1 (by simp [Instr.port])
      · exact absurd hv (hp.noBind n b).1

/-- A word on a port its row does not allow (30 R88). -/
theorem decode_of_illegal_port {p : Port} {w : Word} {k : Kind} (hk : kindOf w = some k) (hl : k.legalOn p = false)
    (addr : Nat) (pay : Payload (payLen w)) : decode p w addr pay = .error .wrongPort := by
  unfold decode
  split
  · rename_i hnone; cases hk.symm.trans hnone
  · rename_i k' hk'
    cases hk.symm.trans hk'
    simp [hl]

end Sys2Proof.Machine
end

section

/-! The statements of 10_state.md, settled. -/

namespace Sys2Proof.Proofs

open Sys2Proof.Machine Sys2Proof.Spec

/-! ### What every step keeps -/

/-- Settles O16: reset gives the invariant, each way an edge can go keeps it, and it bounds UNREAD. -/
theorem cursorInvariantIsKept : Obligations.CursorInvariantIsKept := by
  refine ⟨fun w => .of_zero rfl rfl rfl rfl, fun s t h hstep => ?_, fun s h => ?_⟩
  · exact (step_cases hstep).cursorInv ⟨h.exp, h.mask, h.front, h.back⟩
  · exact ⟨h.mask_toNat, h.exp, h.front, h.back, h.unread_le_mask⟩

/-- Settles O17, invariant by invariant over the ways an edge can go. -/
theorem stepKeepsInvariant : Obligations.StepKeepsInvariant :=
  fun _ _ h hstep => (step_cases hstep).inv (h.withInputs _)

/-- Settles O18: the ring move of an edge stores every byte that joins the unread ones. -/
theorem stepKeepsUnreadWritten : Obligations.StepKeepsUnreadWritten :=
  fun _ _ h hu hstep => (step_cases hstep).unreadWritten (h.withInputs _) hu

/-- Settles O20: agreement on the unread bytes is equality of the queues, which every edge keeps. -/
theorem hiddenStorageIsNotObservable : Obligations.HiddenStorageIsNotObservable := by
  intro s t m e h hm hstep
  obtain ⟨m', o', hq⟩ := (edgeStep_cases hstep).withMem h ((queue_withMem_eq_iff s m).mpr hm)
  exact ⟨m', o'.edgeStep_eq, (queue_withMem_eq_iff t m').mp hq⟩

/-! ### The derived signals -/

/-- Settles O10: under the invariant, masking is the remainder modulo 2^EXP. -/
theorem unreadCountIsModular : Obligations.UnreadCountIsModular := by
  refine fun s => ⟨rfl, rfl, fun h => ⟨?_, h.unread_le_mask, h.mask_toNat⟩⟩
  rw [← h.slots_eq, h.unread_toNat, Nat.add_sub_assoc h.front_lt.le]

/-- Settles O11: MASK + 1 is 2^EXP, and fits 17 bits. -/
theorem reportedCapacity : Obligations.ReportedCapacity := by
  intro s h
  refine ⟨fun he => if_pos he, fun he => ?_⟩
  have hcap : s.capOut = s.mask.setWidth 17 + 1 := if_neg he
  have hmask := s.mask.isLt
  rw [hcap, ← h.slots_eq, State.slots, BitVec.toNat_add, BitVec.toNat_setWidth, show (1 : BitVec 17).toNat = 1 from rfl]
  omega

/-- Settles O12: UNREAD is at most MASK, and 0 exactly when the cursors meet. -/
theorem comparatorsMeanTheCount : Obligations.ComparatorsMeanTheCount := by
  intro s h
  have hsum : s.free.toNat + s.unread.toNat = s.mask.toNat := by
    rw [h.free_toNat, Nat.sub_add_cancel h.unread_le_mask]
  have hfull : s.full = true ↔ s.unread = s.mask := beq_iff_eq
  refine ⟨rfl, hsum, beq_iff_eq, h.empty_iff, hfull, h.full_eq_false_iff, fun hm => ?_, fun hm ⟨he, hf⟩ => ?_⟩
  · have hu := unread_eq_zero_of_mask hm
    exact ⟨h.empty_iff.mpr hu, hfull.mpr (hu.trans hm.symm)⟩
  · exact hm ((hfull.mp hf).symm.trans (h.empty_iff.mp he))

/-- Settles O19: what a pop reads stands in an unread slot, which was written. -/
theorem popsAnswerWrittenBytes : Obligations.PopsAnswerWrittenBytes := by
  intro s h hu hf hb
  have hc := h.cursors
  refine ⟨fun hne => ?_, fun len => ?_⟩
  · have hpos : 0 < s.unread.toNat := Nat.pos_of_ne_zero fun h0 => hne (hc.unread_eq_zero_iff.mp h0)
    have hread := hu.read_eq hpos
    rw [State.unreadIndex, hc.advance_zero hc.front_lt] at hread
    refine ⟨s.readSlot s.front, _, exec_of_bound rfl rfl (by decide) hf hb, hread, ?_⟩
    simp [effect, hne]
  · have hpay := effect_popn_payload (s := s.quiet) ⟨hc.exp, hc.mask, hc.front, hc.back⟩ len
    refine ⟨_, exec_of_bound rfl rfl (by simp [Instr.port]) hf hb, by simp [hpay, clamp], fun j hj => ?_⟩
    have hj' : j < clamp len s.unread := by simpa [hpay] using hj
    rw [hu.read_eq (Nat.lt_of_lt_of_le hj' (Nat.min_le_right _ _)), List.getElem_of_eq hpay hj]
    simp [State.unreadIndex]

/-! ### Who writes what -/

/-- Settles O32: such a command is in error exactly while BOUND = 0. -/
theorem useBeforeBindingIsFatal : Obligations.UseBeforeBindingIsFatal := by
  intro s i hf hb hw hn hc
  have he : aloneError s i = some (.unbound, i.port) := by rw [aloneError_role hw hn hc, hb]; rfl
  rw [exec_of_error hf he]
  rfl

/-- Settles O34: the owners of each cursor, port by port, and the port check of the decoder. -/
theorem cursorsHaveOneOwner : Obligations.CursorsHaveOneOwner := by
  refine ⟨fun s t e hstep => ⟨fun hr => ?_, fun d hd hb => ?_, ?_, ?_⟩, fun p w addr pay k hk h => ?_⟩
  · rw [eq_resetEdge_of_reset hstep hr]; exact ⟨rfl, rfl⟩
  · obtain ⟨n, b, hc⟩ := (binds_iff d).mp hb
    rw [eq_effect_of_bind hstep hd hc]; exact ⟨rfl, rfl⟩
  · exact (edgeStep_cases hstep).back_owner
  · exact (edgeStep_cases hstep).front_owner
  · refine decode_of_illegal_port hk ?_ addr pay
    rcases h with ⟨rfl | rfl, hp⟩ | ⟨rfl | rfl | rfl, hp⟩ <;> simp [Kind.legalOn, hp]

/-- Settles O35: W's command sets or clears FAULT first, then R's may clear it. -/
theorem faultSetAndClearedBy : Obligations.FaultSetAndClearedBy :=
  fun _ _ _ hstep hr => ⟨(edgeStep_cases hstep).fault_set hr, (edgeStep_cases hstep).fault_cleared hr⟩

/-- Settles O36, over the ways an edge can go. -/
theorem bindingAndErrorOwners : Obligations.BindingAndErrorOwners := by
  intro s t e hstep
  cases edgeStep_cases hstep with
  | reset hr ht => subst ht; exact ⟨rfl, fun hr' => absurd (hr'.symm.trans hr) (by decide)⟩
  | frozen hr hf ht => subst ht; exact ⟨rfl, fun _ => ⟨by simp, by simp⟩⟩
  | error hr hf x p hx ht => subst ht; exact ⟨rfl, fun _ => ⟨by simp, fun _ => ⟨rfl, hf, x, p, hx, rfl, rfl⟩⟩⟩
  | bind hr hf d hd hs n b hc hn hw hv ht =>
    subst ht
    exact ⟨rfl, fun _ => ⟨fun _ => ⟨rfl, d, ⟨hr, hf, hd, hs⟩, (binds_iff d).mpr ⟨n, b, hc⟩⟩, by simp [effect]⟩⟩
  | ports hr hf d hd hs hc ht => subst ht; exact ⟨rfl, fun _ => ⟨by simp, by simp⟩⟩

/-- Settles O49: a W command touches the writer's part alone, and its bytes go to the slots from BACK on. -/
theorem writerCommandFrame : Obligations.WriterCommandFrame := by
  intro i s t h hp hf he hexec
  obtain rfl := eq_effect_of_exec hf he hexec
  have hq : s.quiet.CursorInv := ⟨h.exp, h.mask, h.front, h.back⟩
  have hW : ∀ j, some i = some j → j.port = .W := by rintro j ⟨⟩; exact hp
  refine ⟨effect_on_W hp s.quiet, fun hb hn => ⟨?_, ?_⟩, fun hb hk => ?_, ?_, ?_⟩
  · rw [portEffect_back hq hW, storedBytes_eq_nil hb hn]
    exact hq.advance_zero hq.back_lt
  · rw [portEffect_mem hq hW, storedBytes_eq_nil hb hn]
    rfl
  · by_contra hne
    rcases portEffect_fault_ne (s := s.quiet) hne with ⟨v, hv, -⟩ | ⟨⟨p, hv⟩ | hv | ⟨n, b, hv⟩, -⟩ <;> cases hv
    · exact hb v rfl
    · obtain rfl : p = .W := hp
      exact hk rfl
    · cases hp
    · cases hp
  · rintro v rfl a ha
    refine portEffect_readByte_off hq hW fun j hj => ?_
    obtain rfl : j = 0 := by have := storedBytes_pushb_length_le s.quiet v; omega
    rw [hq.advance_zero hq.back_lt]
    exact ha
  · rintro len pay rfl a ha
    refine portEffect_readByte_off hq hW fun j hj => ha j ?_
    rwa [storedBytes_pushn_length] at hj

/-- Settles O50: an R command touches the reader's part alone, and no storage. -/
theorem readerCommandFrame : Obligations.ReaderCommandFrame := by
  intro i s t hp hf he hexec
  obtain rfl := eq_effect_of_exec hf he hexec
  refine ⟨effect_on_R hp s.quiet, fun hb hn hc => ?_, fun hk hc => ?_, fun a => ?_⟩
  · by_contra hne
    rcases portEffect_front_ne (s := s.quiet) hne with hv | ⟨len, hv⟩ | hv | ⟨n, b, hv⟩ <;> cases hv
    · exact hb rfl
    · exact hn len rfl
    · exact hc rfl
    · cases hp
  · by_contra hne
    rcases portEffect_fault_ne (s := s.quiet) hne with ⟨v, hv, -⟩ | ⟨⟨p, hv⟩ | hv | ⟨n, b, hv⟩, -⟩ <;> cases hv
    · cases hp
    · obtain rfl : p = .R := hp
      exact hk rfl
    · exact hc rfl
    · cases hp
  · have hmem := congrArg State.mem (effect_on_R hp s.quiet)
    exact readByte_congr (congrArg (Mem.read · a) hmem)

/-! ### The outputs and the state after reset -/

/-- Settles O8, field by field; the numbers of ERRCODE and ERRPORT follow from the fields that show them. -/
theorem statusWordFields : Obligations.StatusWordFields := by
  intro s
  obtain ⟨hempty, hfull, hfault, hbound, hfatal⟩ := status_flags s
  obtain ⟨h5, h13, h21⟩ := status_unused s
  have code : ∀ x : ErrCode, s.errcode = x → s.status.extractLsb' 8 3 = x.bits := fun x hx => by
    rw [status_errcode, hx]
  have port : ∀ p : Option Port, s.errport = p → s.status.extractLsb' 11 2 = Port.codeOrNone p := fun p hp => by
    rw [status_errport, hp]
  exact ⟨hempty, hfull, hfault, hbound, hfatal, h5, status_errcode s, status_errport s, h13, status_exp s, h21,
    code .none, code .illegalOpcode, code .wrongPort, code .reservedField, code .bindConflict, code .badExponent,
    code .unbound, port none, port (some .C), port (some .W), port (some .R)⟩

/-- Settles O9. -/
theorem snapWordFields : Obligations.SnapWordFields :=
  fun s => ⟨snap_front s, snap_back s⟩

/-- Settles O14, by evaluating the outputs at the one state they speak of. -/
theorem resetStateOutputs : Obligations.ResetStateOutputs :=
  ⟨by decide, by decide, by decide, by decide, by decide, by decide⟩

/-- Settles O15: every register is 0 and nothing is written or unread. -/
theorem resetMeetsInvariant : Obligations.ResetMeetsInvariant := by
  intro w hw
  have hstorage : (State.resetWith w).StorageInv := ⟨hw, Nat.two_pow_pos _, rfl, fun _ hc => nomatch hc⟩
  have hcontrol : (State.resetWith w).ControlInv :=
    .of_running rfl ⟨rfl, rfl⟩ (fun _ => ⟨rfl, rfl, rfl⟩) (Nat.zero_le _)
  exact ⟨⟨hstorage, .of_zero rfl rfl rfl rfl, hcontrol⟩,
    unreadWritten_of_unread_eq_zero (unread_eq_zero_of_cursors rfl), rfl⟩

/-- Settles O23: with the script at its end and with an idle line, the step is an idle edge. -/
theorem idleEdgeOnlySilences : Obligations.IdleEdgeOnlySilences := by
  refine ⟨fun s h => ?_, fun s rest h => ?_⟩
  · have hnext : s.nextEdge = (.idle, s) := by simp [State.nextEdge, h]
    rw [step, hnext]
    exact edgeStep_idle s
  · have hnext : s.nextEdge = (.idle, { s with inputs := rest }) := by simp [State.nextEdge, h]
    rw [step, hnext]
    exact edgeStep_idle _

end Sys2Proof.Proofs
end

section

/-! What one edge commits: a BIND, a command alone, or both roles' parts put together, with FAULT serialised (20 R58 to
R62). -/

namespace Sys2Proof.Machine

open Sys2Proof.Spec

/-! ### An edge without BIND -/

theorem ne_bind_of_binds_eq_false {d : Accepted} (h : binds d = false) (n : Byte) (b : Nat) : d.c ≠ some (.bind n b) :=
  fun hc => by simp [(binds_iff d).mpr ⟨n, b, hc⟩] at h

/-- The state an edge leaves that commits the commands of W and R (20 R60). -/
def portsState (s : State) (d : Accepted) : State :=
  mergePorts s (portEffect d.w s.quiet) (portEffect d.r (afterW s d.w))

theorem edgeStep_of_ports {s : State} {e : Edge} {d : Accepted} (h : Commits s e d) (hb : binds d = false) :
    edgeStep s e = .next (portsState s d) := by
  rw [edgeStep_of_commits h]
  exact commit_of_ports h (ne_bind_of_binds_eq_false hb)

theorem commit_eq_exec_bind {s : State} {d : Accepted} {n : Byte} {b : Nat} (hc : d.c = some (.bind n b)) :
    commit s d = exec (.bind n b) s := by
  simp [commit, hc]

theorem aloneError_of_commits {s : State} {e : Edge} {d : Accepted} (h : Commits s e d) (hb : binds d = false) {i : Instr}
    (hi : d.w = some i ∨ d.r = some i) : aloneError s i = none :=
  aloneError_of_semantic (decodeEdge_onPorts h.decoded) h.noError (ne_bind_of_binds_eq_false hb) hi

/-! ### FAULT within one edge (20 R62) -/

/-- FAULT as the W command leaves it is `f1` of 20 R62. -/
theorem portEffect_W_fault {w : Option Instr} (hp : ∀ j, w = some j → j.port = .W) (s : State) :
    (portEffect w s).fault = faultAfterW s.fault w (rejects s w) := by
  rw [portEffect_fault]
  cases w with
  | none => rfl
  | some i =>
    cases i with
    | pushb v => by_cases hlt : s.unread < s.mask <;> simp [faultAfterW, rejects, Instr.kind, hlt]
    | bind n b => cases hp _ rfl
    | chkfClr => cases hp _ rfl
    | _ => rfl

/-- FAULT as the R command leaves it: CHKF and CHKF.CLR clear what they find. -/
theorem portEffect_R_fault_eq {r : Option Instr} (hp : ∀ j, r = some j → j.port = .R) (s : State) {f0 : Bool}
    {w : Option Instr} {rejected : Bool} (hs : s.fault = faultAfterW f0 w rejected) :
    (portEffect r s).fault = faultSerial f0 w rejected r := by
  rw [portEffect_fault, hs]
  cases r with
  | none => rfl
  | some i =>
    cases i with
    | pushb v => cases hp _ rfl
    | bind n b => cases hp _ rfl
    | _ => rfl

theorem afterW_fault {w : Option Instr} (hp : ∀ j, w = some j → j.port = .W) (s : State) :
    (afterW s w).fault = faultAfterW s.fault w (rejects s w) :=
  portEffect_W_fault hp s.quiet

/-! ### A command alone -/

theorem aloneError_of_wellFormed {i : Instr} (hw : i.wellFormed = true) (s : State) :
    aloneError s i = semanticError s (alone i) := if_pos hw

theorem alone_onPorts {i : Instr} (hw : i.wellFormed = true) : (alone i).OnPorts := by
  have own : ∀ j, some i = some j → j.port = i.port ∧ j.wellFormed = true := by rintro j ⟨⟩; exact ⟨rfl, hw⟩
  unfold alone
  split
  · rename_i hp; rw [hp] at own; exact ⟨own, nofun, nofun⟩
  · rename_i hp; rw [hp] at own; exact ⟨nofun, own, nofun⟩
  · rename_i hp; rw [hp] at own; exact ⟨nofun, nofun, own⟩

theorem eq_of_alone_c {i j : Instr} (h : (alone i).c = some j) : i = j := by
  cases hp : i.port <;> simp [alone, hp] at h
  exact h

theorem eq_nop_of_port_C {i : Instr} (hp : i.port = .C) (hw : i.wellFormed = true) (hb : ∀ n b, i ≠ .bind n b) :
    i = .nop .C := by
  cases i with
  | nop p => cases hp; rfl
  | bind n b => exact absurd rfl (hb n b)
  | count p | chkf p => cases hp; cases hw
  | _ => cases hp

/-- The merge of a command's part with that of a port that does nothing is the command's effect. -/
theorem portsState_alone {i : Instr} (hw : i.wellFormed = true) (hb : ∀ n b, (alone i).c ≠ some (.bind n b))
    (s : State) : portsState s (alone i) = effect i s.quiet := by
  cases hp : i.port with
  | C =>
    have ha : alone i = ⟨some i, none, none⟩ := by simp [alone, hp]
    rw [ha] at hb ⊢
    rw [eq_nop_of_port_C hp hw fun n b h => hb n b (congrArg some h)]
    rfl
  | W =>
    rw [effect_on_W hp]
    simp only [alone, hp]
    rfl
  | R =>
    rw [effect_on_R hp]
    simp only [alone, hp]
    rfl

/-- The commit of a command alone is `exec` of it. -/
theorem commit_alone {s : State} {i : Instr} (hf : s.fatal = false) (hw : i.wellFormed = true)
    (he : aloneError s i = none) : commit s (alone i) = exec i s := by
  have hs := (aloneError_of_wellFormed hw s).symm.trans he
  rcases commit_ok hf (alone_onPorts hw) hs with ⟨n, b, hc, -⟩ | ⟨hb, hcommit⟩
  · rw [commit_eq_exec_bind hc, eq_of_alone_c hc]
  · rw [hcommit, exec_of_ok hf he]
    exact congrArg _ (portsState_alone hw hb s)

theorem edgeStep_alone {s : State} {e : Edge} {i : Instr} (hr : e.rst = false) (hd : decodeEdge e = .ok (alone i))
    (hw : i.wellFormed = true) : edgeStep s e = exec i s := by
  cases hf : s.fatal with
  | true => rw [(EdgeOutcome.frozen hr hf rfl).edgeStep_eq, exec_of_fatal hf]
  | false =>
    have hs := (aloneError_of_wellFormed hw s).symm
    cases he : aloneError s i with
    | some x =>
      have hx : firstError s e = some (x.1, x.2) := (firstError_of_decoded hd).trans (hs.trans he)
      rw [(EdgeOutcome.error hr hf x.1 x.2 hx rfl).edgeStep_eq, exec_of_error hf he]
    | none => rw [edgeStep_of_commits ⟨hr, hf, hd, hs.trans he⟩, commit_alone hf hw he]

/-! ### The storage an edge writes -/

theorem EdgeOutcome.readByte_off {s t : State} {e : Edge} (o : EdgeOutcome s e t) (h : s.CursorInv) {a : Nat}
    (ha : ∀ j < s.free.toNat, a ≠ s.slot (s.advance s.back j)) : t.readByte a = s.readByte a := by
  cases o with
  | reset hr ht => subst ht; rfl
  | frozen hr hf ht => subst ht; rfl
  | error hr hf x p hx ht => subst ht; rfl
  | bind hr hf d hd hs n b hc hn hw hv ht => subst ht; rfl
  | ports hr hf d hd hs hc ht =>
    subst ht
    have hq : s.quiet.CursorInv := ⟨h.exp, h.mask, h.front, h.back⟩
    exact portEffect_readByte_off hq (fun j hj => ((decodeEdge_onPorts hd).w j hj).1) fun j hj =>
      ha j (Nat.lt_of_lt_of_le hj (storedBytes_le_free hq d.w))

end Sys2Proof.Machine
end

section

/-! The slots an edge writes and the slots its answers depend on (20 R63). -/

namespace Sys2Proof.Machine

open Sys2Proof.Spec

/-! ### The counts of the statements are those of the ring -/

theorem storedBytes_length (s : State) (w : Option Instr) : (storedBytes s w).length = storedCount s w := by
  cases w with
  | none => rfl
  | some i =>
    cases i with
    | pushb v => simp only [storedBytes, storedCount]; split <;> rfl
    | pushn len pay => exact storedBytes_pushn_length s len pay
    | _ => rfl

/-- The bytes a W command stores are those it adds to the queue of at most MASK bytes. -/
theorem queuePushed_eq_storedBytes {s : State} (h : s.CursorInv) (w : Option Instr) :
    queuePushed s.mask.toNat s.queue w = storedBytes s w := by
  cases w with
  | none => rfl
  | some i =>
    cases i with
    | pushb v => simp only [queuePushed, storedBytes, queue_length, BitVec.lt_def]
    | pushn len pay =>
      simp only [queuePushed, storedBytes, queue_length, clamp, ← h.free_toNat]
      rw [← List.take_take, List.take_of_length_le (l := pay.bytes.take _) (by simp [pay.size])]
    | _ => rfl

/-- The bytes an R command reads are those it removes, but for a CHKF.CLR, which drops them unread. -/
theorem readCount_eq_removedCount (s : State) {r : Option Instr} (hr : r ≠ some .chkfClr) :
    readCount s r = removedCount s r := by
  cases r with
  | none => rfl
  | some i =>
    cases i with
    | popb => by_cases hne : s.front = s.back <;> simp [readCount, removedCount, hne]
    | chkfClr => exact absurd rfl hr
    | _ => rfl

theorem storedCount_le_free {s : State} (h : s.CursorInv) (w : Option Instr) : storedCount s w ≤ s.free.toNat :=
  storedBytes_length s w ▸ storedBytes_le_free h w

theorem readCount_le_unread {s : State} (h : s.CursorInv) (r : Option Instr) : readCount s r ≤ s.unread.toNat := by
  by_cases hr : r = some .chkfClr
  · subst hr; exact Nat.zero_le _
  · rw [readCount_eq_removedCount s hr]
    exact removedCount_le_unread h r

/-! ### The free and the unread slots, and the reserved one -/

theorem free_add_unread {s : State} (h : s.CursorInv) : s.free.toNat + s.unread.toNat = s.mask.toNat := by
  rw [h.free_toNat, Nat.sub_add_cancel h.unread_le_mask]

/-- The reserved slot is MASK slots on from FRONT. -/
theorem pred_front_eq_advance {s : State} (h : s.CursorInv) :
    (s.front - 1) &&& s.mask = s.advance s.front s.mask.toNat := by
  apply BitVec.eq_of_toNat_eq
  have hmask : s.mask.toNat ≡ 65535 [MOD s.slots] := by
    have hlt := s.mask.isLt
    refine (Nat.modEq_iff_dvd' (by omega)).mpr ?_
    rw [show 65535 - s.mask.toNat = 65536 - s.slots by unfold State.slots; omega]
    exact Nat.dvd_sub h.slots_dvd dvd_rfl
  rw [h.and_mask, h.advance_toNat, BitVec.toNat_sub, Nat.mod_mod_of_dvd _ h.slots_dvd, Nat.add_comm]
  exact (hmask.add_left s.front.toNat).symm

theorem back_advance {s : State} (h : s.CursorInv) (i : Nat) :
    s.advance s.back i = s.advance s.front (s.unread.toNat + i) := by
  rw [← h.advance_advance, h.advance_unread]

/-- The slots fewer than MASK on from FRONT are not the reserved one. -/
theorem slot_ne_reserved {s : State} (h : s.CursorInv) (ha : 16 ≤ s.addrW) {k : Nat} (hk : k < s.mask.toNat) :
    s.slot (s.advance s.front k) ≠ s.slot ((s.front - 1) &&& s.mask) := by
  intro heq
  have hidx := State.slot_inj ha heq
  rw [pred_front_eq_advance h] at hidx
  have := h.advance_inj (Nat.lt_succ_of_lt hk) (Nat.lt_succ_self _) hidx
  omega

/-! ### What an edge answers depends on the slots its R command reads alone -/

theorem commits_withMem {s : State} {e : Edge} {d : Accepted} (h : Commits s e d) (m : Mem) :
    Commits { s with mem := m } e d := ⟨h.noReset, h.noFatal, h.decoded, h.noError⟩

/-- On another storage that agrees on what the R command reads, the commands of W and R leave the same state but for the
storage. -/
theorem portsState_withMem {s : State} (h : s.CursorInv) {d : Accepted} (hp : d.OnPorts) {m : Mem}
    (hm : ∀ j < readCount s d.r,
      { s with mem := m }.readSlot (s.advance s.front j) = s.readSlot (s.advance s.front j)) :
    ∃ m', portsState { s with mem := m } d = { portsState s d with mem := m' } := by
  obtain ⟨m', hW⟩ := portEffect_W_mem (fun j hj => (hp.w j hj).1) s.quiet m
  have ha : (afterW s d.w).CursorInv := ⟨h.exp, h.mask, h.front, h.back⟩
  have hafter : afterW { s with mem := m } d.w = { afterW s d.w with mem := m } := by
    show ({ s.quiet with mem := m, fault := (portEffect d.w { s.quiet with mem := m }).fault } : State) = _
    rw [hW]; rfl
  have hR := portEffect_R_mem ha (fun j hj => (hp.r j hj).1) m fun hr j hj =>
    hm j ((readCount_eq_removedCount (afterW s d.w) hr).symm ▸ hj)
  refine ⟨m', ?_⟩
  show mergePorts _ (portEffect d.w { s.quiet with mem := m }) (portEffect d.r (afterW _ d.w)) = _
  rw [hafter, hR, hW]
  rfl

end Sys2Proof.Machine
end

section

/-! One edge as its two commands one after the other (20 R64): the second command does what it does at the joint edge, since
it reads nothing that the first one wrote. -/

namespace Sys2Proof.Machine

open Sys2Proof.Spec

/-! ### Bulk transfers read the binding and the storage alone -/

/-- `t` has the binding and the storage of `s`, which are all that the runs of a bulk transfer read. -/
structure SameStorage (s t : State) : Prop where
  mask : t.mask = s.mask
  base : t.base = s.base
  addrW : t.addrW = s.addrW
  mem : t.mem = s.mem

namespace SameStorage

variable {s t : State}

theorem slot (h : SameStorage s t) (i : Cursor) : t.slot i = s.slot i := by
  simp only [State.slot, h.base, h.addrW]

theorem advance (h : SameStorage s t) (x : Cursor) (k : Nat) : t.advance x k = s.advance x k := by
  simp only [State.advance, h.mask]

theorem splitLen (h : SameStorage s t) (i : Cursor) (n : Nat) : t.splitLen i n = s.splitLen i n := by
  simp only [State.splitLen, State.room, h.mask]

theorem readSlot (h : SameStorage s t) (i : Cursor) : t.readSlot i = s.readSlot i := by
  simp only [State.readSlot, State.readByte, h.slot, h.mem]

theorem writeRun (h : SameStorage s t) (i : Cursor) (bs : List Byte) :
    SameStorage (s.writeRun i bs) (t.writeRun i bs) := by
  induction bs generalizing s t i with
  | nil => exact h
  | cons b bs ih =>
    have hb : SameStorage (s.writeSlot i b) (t.writeSlot i b) :=
      ⟨h.mask, h.base, h.addrW, by simp only [writeSlot_mem, h.slot, h.mem]⟩
    exact ih hb (i + 1)

theorem writeSplit (h : SameStorage s t) (i : Cursor) (bs : List Byte) :
    (t.writeSplit i bs).mem = (s.writeSplit i bs).mem := by
  simp only [State.writeSplit, h.splitLen]
  exact ((h.writeRun _ _).writeRun _ _).mem

theorem readRun (h : SameStorage s t) (i : Cursor) (n : Nat) : t.readRun i n = s.readRun i n := by
  induction n generalizing i with
  | zero => rfl
  | succ n ih => simp only [State.readRun, h.readSlot, ih]

theorem readSplit (h : SameStorage s t) (i : Cursor) (n : Nat) : t.readSplit i n = s.readSplit i n := by
  simp only [State.readSplit, h.splitLen, h.readRun]

end SameStorage

/-! ### The reader's and the writer's part of a state -/

/-- `t` and `u` agree on what the R command writes, FAULT apart. -/
structure SameReader (t u : State) : Prop where
  front : t.front = u.front
  rspR : t.rspR = u.rspR
  rspPayR : t.rspPayR = u.rspPayR

/-- `t` and `u` agree on what the W command writes, FAULT apart. -/
structure SameWriter (t u : State) : Prop where
  back : t.back = u.back
  mem : t.mem = u.mem
  rspW : t.rspW = u.rspW

theorem portEffect_R_sameStorage {r : Option Instr} (hR : ∀ j, r = some j → j.port = .R) (s : State) :
    SameStorage s (portEffect r s) := by
  rw [portEffect_on_R hR]; exact ⟨rfl, rfl, rfl, rfl⟩

theorem portEffect_R_sameWriter {r : Option Instr} (hR : ∀ j, r = some j → j.port = .R) (s : State) :
    SameWriter (portEffect r s) s := by
  rw [portEffect_on_R hR]; exact ⟨rfl, rfl, rfl⟩

theorem portEffect_W_sameReader {w : Option Instr} (hW : ∀ j, w = some j → j.port = .W) (s : State) :
    SameReader (portEffect w s) s := by
  rw [portEffect_on_W hW]; exact ⟨rfl, rfl, rfl⟩

/-- A W command that stores nothing leaves BACK and the storage. -/
theorem portEffect_W_of_nothing_stored {s : State} (h : s.CursorInv) {w : Option Instr}
    (hW : ∀ j, w = some j → j.port = .W) (hn : storedBytes s w = []) :
    (portEffect w s).back = s.back ∧ (portEffect w s).mem = s.mem := by
  rw [portEffect_back h hW, portEffect_mem h hW, hn]
  exact ⟨h.advance_zero h.back_lt, rfl⟩

/-! ### A PUSHN cut to its result -/

theorem clamp_of_clamp {len a b : Cursor} (h : a.toNat ≤ b.toNat) :
    clamp (BitVec.ofNat 16 (clamp len a)) b = clamp len a := by
  have hlen := len.isLt
  simp only [clamp, BitVec.toNat_ofNat]
  omega

@[simp] theorem cutToResult_kind (s : State) (w : Option Instr) :
    (cutToResult s w).map Instr.kind = w.map Instr.kind := by
  cases w with
  | none => rfl
  | some i => cases i <;> rfl

theorem cutToResult_port {p : Port} {s : State} {w : Option Instr} (h : ∀ j, w = some j → j.port = p) :
    ∀ j, cutToResult s w = some j → j.port = p := by
  cases w with
  | none => exact fun _ hj => nomatch hj
  | some i =>
    have hi := h i rfl
    cases i <;> rintro j ⟨⟩ <;> exact hi

/-- In a state with no less free space, a PUSHN cut to the count it returns in `s` stores and answers what it does in
`s`. -/
theorem pushn_cut_sameWriter {s t : State} (h : SameStorage s t) (hb : t.back = s.back)
    (hf : s.free.toNat ≤ t.free.toNat) (len : Cursor) (pay : Payload len.toNat) :
    SameWriter (portEffect (cutToResult s (some (.pushn len pay))) t) (portEffect (some (.pushn len pay)) s) := by
  have hn : clamp (BitVec.ofNat 16 (clamp len s.free)) t.free = clamp len s.free := clamp_of_clamp hf
  refine ⟨?_, ?_, ?_⟩
  · show t.advance t.back (clamp (BitVec.ofNat 16 (clamp len s.free)) t.free) = s.advance s.back (clamp len s.free)
    rw [hn, h.advance, hb]
  · show (t.writeSplit t.back ((pay.bytes.take (clamp len s.free)).take
      (clamp (BitVec.ofNat 16 (clamp len s.free)) t.free))).mem = (s.writeSplit s.back (pay.bytes.take _)).mem
    rw [hn, List.take_take, Nat.min_self, h.writeSplit, hb]
  · exact congrArg (fun n => (⟨true, response (BitVec.ofNat 16 n) 0 false⟩ : Rsp)) hn

/-- In the state whose free space it is cut to, a PUSHN does what it does uncut. -/
theorem portEffect_cutToResult (s : State) (w : Option Instr) :
    portEffect (cutToResult s w) s = portEffect w s := by
  cases w with
  | none => rfl
  | some i =>
    cases i with
    | pushn len pay =>
      have hW : ∀ j, some (Instr.pushn len pay) = some j → j.port = .W := by rintro j ⟨⟩; rfl
      have h := pushn_cut_sameWriter ⟨rfl, rfl, rfl, rfl⟩ rfl (Nat.le_refl s.free.toNat) len pay
      rw [portEffect_on_W (cutToResult_port hW) s, portEffect_on_W hW s, h.back, h.mem, h.rspW]
      rfl
    | _ => rfl

/-! ### W then R: an R command that finds what it reads unchanged -/

/-- An R command that answers the same whatever a W command stores: it reads no cursor and no storage, or it pops the byte
at FRONT, which is there. -/
inductive ReaderIgnoresWriter (s : State) : Option Instr → Prop
  | inactive {r : Option Instr} (h : active r = false) : ReaderIgnoresWriter s r
  | chkf : ReaderIgnoresWriter s (some (.chkf .R))
  | popb (h : s.front ≠ s.back) : ReaderIgnoresWriter s (some .popb)

theorem effect_popb_of_ne {s : State} (h : s.front ≠ s.back) :
    effect .popb s =
      { s with front := s.advance s.front 1, rspR := ⟨true, response 0 (s.readSlot s.front) true⟩, rspPayR := [] } :=
  if_pos (bne_iff_ne.mpr h)

theorem effect_popb_of_eq {s : State} (h : s.front = s.back) :
    effect .popb s = { s with rspR := ⟨true, response 0 0 false⟩, rspPayR := [] } :=
  if_neg (by simp [h])

/-- Such a command answers the same beside more bytes behind the unread ones. -/
theorem ReaderIgnoresWriter.sameReader {s t : State} {r : Option Instr} (hr : ReaderIgnoresWriter s r)
    (h : SameReader t s) (hfault : t.fault = s.fault) (hmask : t.mask = s.mask)
    (hread : s.front ≠ s.back → t.front ≠ t.back ∧ t.readSlot s.front = s.readSlot s.front) :
    SameReader (portEffect r t) (portEffect r s) := by
  cases hr with
  | inactive hi => rw [portEffect_of_inactive hi, portEffect_of_inactive hi]; exact h
  | chkf => exact ⟨h.front, by simp [portEffect, effect, hfault], rfl⟩
  | popb hne =>
    obtain ⟨hne', hbyte⟩ := hread hne
    simp only [portEffect, effect_popb_of_ne hne, effect_popb_of_ne hne']
    exact ⟨by simp only [State.advance, h.front, hmask], by simp only [h.front, hbyte], rfl⟩

/-- An R command reads the binding, the storage, the cursors and FAULT. -/
theorem portEffect_R_congr {s t : State} {r : Option Instr} (hR : ∀ j, r = some j → j.port = .R)
    (hs : SameStorage s t) (h : SameReader t s) (hb : t.back = s.back) (hfault : t.fault = s.fault) :
    SameReader (portEffect r t) (portEffect r s) := by
  have hu : t.unread = s.unread := by simp only [State.unread, h.front, hb, hs.mask]
  cases r with
  | none => exact h
  | some i =>
    cases i with
    | nop p => exact h
    | count p => cases hR _ rfl; exact ⟨h.front, by simp [portEffect, effect, hu], rfl⟩
    | chkf p => cases hR _ rfl; exact ⟨h.front, by simp [portEffect, effect, hfault], rfl⟩
    | chkfClr => exact ⟨hb, by simp [portEffect, effect, hfault], rfl⟩
    | popb =>
      by_cases hne : s.front = s.back
      · have hne' : t.front = t.back := by rw [h.front, hb, hne]
        simp only [portEffect, effect_popb_of_eq hne, effect_popb_of_eq hne']
        exact ⟨h.front, rfl, rfl⟩
      · exact (ReaderIgnoresWriter.popb hne).sameReader h hfault hs.mask fun _ =>
          ⟨by rwa [h.front, hb], hs.readSlot s.front⟩
    | popn len =>
      simp only [portEffect, effect]
      exact ⟨by simp only [hs.advance, h.front, hu], by simp only [hu], by simp only [hs.readSplit, h.front, hu]⟩
    | _ => cases hR _ rfl

/-- Behind a W command the unread bytes are still there, the oldest at FRONT. -/
theorem portEffect_W_front_unread {s : State} (h : s.CursorInv) (ha : 16 ≤ s.addrW) {w : Option Instr}
    (hW : ∀ j, w = some j → j.port = .W) (hne : s.front ≠ s.back) :
    (portEffect w s).front ≠ (portEffect w s).back ∧ (portEffect w s).readSlot s.front = s.readSlot s.front := by
  have hpos : 0 < s.unread.toNat := Nat.pos_of_ne_zero fun h0 => hne (h.unread_eq_zero_iff.mp h0)
  have hle := storedBytes_le_free h w
  have h0 := h.advance_zero h.front_lt
  have hslot : (portEffect w s).slot s.front = s.slot s.front := by rw [portEffect_on_W hW]; rfl
  refine ⟨fun heq => ?_, ?_⟩
  · rw [(portEffect_W_sameReader hW s).front, portEffect_back h hW, back_advance h] at heq
    have hsum := free_add_unread h
    have := h.advance_inj s.slots_pos (by unfold State.slots; omega) (h0.trans heq)
    omega
  · rw [State.readSlot, hslot]
    refine portEffect_readByte_off h hW fun j hj => ?_
    have := free_slot_ne_unread_slot h ha (Nat.lt_of_lt_of_le hj hle) hpos
    rw [h0] at this
    exact this.symm

/-! ### R then W: a W command that finds what it reads unchanged -/

/-- A W command that stores and answers the same whatever an R command removes: it reads no cursor, or it stores bytes for
which there is room. -/
inductive WriterIgnoresReader (s : State) : Option Instr → Prop
  | inactive {w : Option Instr} (h : active w = false) : WriterIgnoresReader s w
  | pushb (v : Byte) (h : s.unread < s.mask) : WriterIgnoresReader s (some (.pushb v))
  | pushn (len : Cursor) (pay : Payload len.toNat) : WriterIgnoresReader s (some (.pushn len pay))

theorem effect_pushb_of_lt {s : State} (h : s.unread < s.mask) (v : Byte) :
    effect (.pushb v) s =
      { s with mem := s.mem.write (s.slot s.back) v, back := s.advance s.back 1, rspW := ⟨true, response 0 0 true⟩ } :=
  if_pos h

theorem effect_pushb_of_not_lt {s : State} (h : ¬ s.unread < s.mask) (v : Byte) :
    effect (.pushb v) s = { s with fault := true, rspW := ⟨true, response 0 0 false⟩ } :=
  if_neg h

/-- Such a command does not touch FAULT. -/
theorem WriterIgnoresReader.fault {s : State} {w : Option Instr} (hw : WriterIgnoresReader s w) :
    (portEffect w s).fault = s.fault := by
  cases hw with
  | inactive hi => rw [portEffect_of_inactive hi]
  | pushb v hlt => rw [portEffect, effect_pushb_of_lt hlt]
  | pushn len pay => rfl

theorem cutToResult_of_inactive {s : State} {w : Option Instr} (h : active w = false) : cutToResult s w = w := by
  cases w with
  | none => rfl
  | some i =>
    cases i with
    | pushn len pay => cases h
    | _ => rfl

section Removed

variable {s t : State} (hu : t.unread.toNat ≤ s.unread.toNat) (hs : SameStorage s t)
include hu hs

/-- There is room where there was. -/
theorem unread_lt_mask_of_le (hlt : s.unread < s.mask) : t.unread < t.mask := by
  rw [BitVec.lt_def] at hlt ⊢
  rw [hs.mask]
  exact Nat.lt_of_le_of_lt hu hlt

theorem WriterIgnoresReader.after {w : Option Instr} (hw : WriterIgnoresReader s w) :
    WriterIgnoresReader t (cutToResult s w) := by
  cases hw with
  | inactive hi => rw [cutToResult_of_inactive hi]; exact .inactive hi
  | pushb v hlt => exact .pushb v (unread_lt_mask_of_le hu hs hlt)
  | pushn len pay => exact .pushn _ _

/-- Such a command stores and answers the same behind fewer unread bytes. -/
theorem WriterIgnoresReader.sameWriter {w : Option Instr} (hw : WriterIgnoresReader s w) (h : SameWriter t s)
    (hf : s.free.toNat ≤ t.free.toNat) :
    SameWriter (portEffect (cutToResult s w) t) (portEffect w s) := by
  cases hw with
  | inactive hi =>
    rw [cutToResult_of_inactive hi, portEffect_of_inactive hi, portEffect_of_inactive hi]; exact h
  | pushb v hlt =>
    simp only [cutToResult, portEffect, effect_pushb_of_lt hlt,
      effect_pushb_of_lt (unread_lt_mask_of_le hu hs hlt)]
    exact ⟨by simp only [hs.advance, h.back], by simp only [hs.slot, h.back, h.mem], rfl⟩
  | pushn len pay => exact pushn_cut_sameWriter hs h.back hf len pay

end Removed

/-- A W command reads the binding, the cursors and FAULT. -/
theorem portEffect_W_congr {s t : State} {w : Option Instr} (hW : ∀ j, w = some j → j.port = .W)
    (hs : SameStorage s t) (h : SameWriter t s) (hfront : t.front = s.front) (hfault : t.fault = s.fault) :
    SameWriter (portEffect (cutToResult s w) t) (portEffect w s) ∧
      (portEffect (cutToResult s w) t).fault = (portEffect w s).fault := by
  have hu : t.unread = s.unread := by simp only [State.unread, hfront, h.back, hs.mask]
  have hf : t.free = s.free := by simp only [State.free, hu, hs.mask]
  refine ⟨?_, by rw [portEffect_fault, portEffect_fault, cutToResult_kind, hu, hs.mask, hfault]⟩
  cases w with
  | none => exact h
  | some i =>
    cases i with
    | nop p => exact h
    | count p => cases hW _ rfl; exact ⟨h.back, h.mem, by simp [cutToResult, portEffect, effect, hu]⟩
    | chkf p => cases hW _ rfl; exact ⟨h.back, h.mem, by simp [cutToResult, portEffect, effect, hfault]⟩
    | pushb v =>
      by_cases hlt : s.unread < s.mask
      · exact (WriterIgnoresReader.pushb v hlt).sameWriter (by rw [hu]) hs h (by rw [hf])
      · have hlt' : ¬ t.unread < t.mask := by rwa [hu, hs.mask]
        simp only [cutToResult, portEffect, effect_pushb_of_not_lt hlt, effect_pushb_of_not_lt hlt']
        exact ⟨h.back, h.mem, rfl⟩
    | pushn len pay => exact pushn_cut_sameWriter hs h.back (by rw [hf]) len pay
    | _ => cases hW _ rfl

/-- An R command that writes neither FRONT nor FAULT, and answers no FAULT. -/
theorem portEffect_of_silent {r : Option Instr} (hr : active r = false ∨ r = some (.count .R)) (s : State) :
    (portEffect r s).front = s.front ∧ (portEffect r s).fault = s.fault := by
  rcases hr with hi | rfl
  · rw [portEffect_of_inactive hi]; exact ⟨rfl, rfl⟩
  · exact ⟨rfl, rfl⟩

theorem portEffect_of_silent_fault {r : Option Instr} (hr : active r = false ∨ r = some (.count .R)) (s : State)
    (f : Bool) : portEffect r { s with fault := f } = { portEffect r s with fault := f } := by
  rcases hr with hi | rfl
  · rw [portEffect_of_inactive hi, portEffect_of_inactive hi]
  · rfl

/-- An R command leaves no more unread than there was, and no less free. -/
theorem portEffect_R_unread_le {s : State} (h : s.CursorInv) {r : Option Instr} (hR : ∀ j, r = some j → j.port = .R) :
    (portEffect r s).unread.toNat ≤ s.unread.toNat ∧ s.free.toNat ≤ (portEffect r s).free.toNat := by
  have ht : (portEffect r s).CursorInv := portEffect_cursorInv h fun n b hr => by cases hR _ hr
  have hs := portEffect_R_sameStorage hR s
  have hback := (portEffect_R_sameWriter hR s).back.trans (h.advance_zero h.back_lt).symm
  have hmoved := unread_moved h ht hs.mask (portEffect_front h hR) hback (removedCount_le_unread h r) (Nat.zero_le _)
  rw [h.free_toNat, ht.free_toNat, hs.mask]
  omega

/-! ### The orders of the table -/

/-- Where the table of 20 R64 allows W then R, W stores nothing or R does not read what W stores. -/
theorem readerIgnores_of_order {s : State} (h : s.CursorInv) {w r : Option Instr} (hW : ∀ j, w = some j → j.port = .W)
    (hR : ∀ j, r = some j → j.port = .R) (ho : orderAllowed s w r true = true) :
    storedBytes s w = [] ∨ ReaderIgnoresWriter s r := by
  cases w with
  | none => exact .inl rfl
  | some i =>
    cases i with
    | pushb v =>
      by_cases hlt : s.unread < s.mask
      · have hfull := h.full_eq_false_iff.mpr hlt
        have hrej : rejects s (some (.pushb v)) = false := by simp [rejects, hlt]
        refine .inr (.inactive ?_)
        cases r with
        | none => rfl
        | some j =>
          cases j with
          | nop p => rfl
          | popb | popn len => simp [orderAllowed, Instr.kind, hfull] at ho
          | chkf p | chkfClr => simp [orderAllowed, Instr.kind, hrej] at ho
          | count p => simp [orderAllowed, Instr.kind] at ho
          | _ => cases hR _ rfl
      · exact .inl (if_neg hlt)
    | pushn len pay =>
      refine .inr ?_
      cases r with
      | none => exact .inactive rfl
      | some j =>
        cases j with
        | nop p => exact .inactive rfl
        | chkf p => cases hR _ rfl; exact .chkf
        | popb => exact .popb (by simpa [orderAllowed, Instr.kind, State.empty] using ho)
        | popn len | chkfClr | count p => simp [orderAllowed, Instr.kind] at ho
        | _ => cases hR _ rfl
    | nop p | count p | chkf p => exact .inl rfl
    | _ => cases hW _ rfl

/-- Where the table of 20 R64 allows R then W, R leaves all that W reads or W does not read what R removes. -/
theorem writerIgnores_of_order {s : State} (h : s.CursorInv) {w r : Option Instr} (hW : ∀ j, w = some j → j.port = .W)
    (hR : ∀ j, r = some j → j.port = .R) (ho : orderAllowed s w r false = true) :
    (active r = false ∨ r = some (.count .R)) ∨ WriterIgnoresReader s w := by
  cases w with
  | none => exact .inr (.inactive rfl)
  | some i =>
    cases i with
    | nop p => exact .inr (.inactive rfl)
    | pushn len pay => exact .inr (.pushn len pay)
    | pushb v =>
      by_cases hlt : s.unread < s.mask
      · exact .inr (.pushb v hlt)
      · have hfull : s.full = true := by
          rw [← Bool.not_eq_false]; exact fun hf => hlt (h.full_eq_false_iff.mp hf)
        have hrej : rejects s (some (.pushb v)) = true := by simp [rejects, hlt]
        refine .inl ?_
        cases r with
        | none => exact .inl rfl
        | some j =>
          cases j with
          | nop p => exact .inl rfl
          | count p => cases hR _ rfl; exact .inr rfl
          | popb | popn len => simp [orderAllowed, Instr.kind, hfull] at ho
          | chkf p | chkfClr => simp [orderAllowed, Instr.kind, hrej] at ho
          | _ => cases hR _ rfl
    | count p | chkf p =>
      refine .inl ?_
      cases r with
      | none => exact .inl rfl
      | some j =>
        cases j with
        | nop p => exact .inl rfl
        | count p => cases hR _ rfl; exact .inr rfl
        | popb | popn len | chkf p | chkfClr => simp [orderAllowed, Instr.kind] at ho
        | _ => cases hR _ rfl
    | _ => cases hW _ rfl

/-! ### The two commands, each at an edge of its own -/

theorem aloneError_congr {s t : State} (hb : t.bound = s.bound) (i : Instr) : aloneError t i = aloneError s i := by
  simp only [aloneError, semanticError, hb]

/-- Cutting a PUSHN changes nothing that the error check reads. -/
theorem aloneError_cutToResult {s t : State} {w : Option Instr} (h : ∀ j, w = some j → aloneError t j = none) :
    ∀ j, cutToResult s w = some j → aloneError t j = none := by
  cases w with
  | none => exact fun _ hj => nomatch hj
  | some i =>
    have hi := h i rfl
    cases i <;> rintro j ⟨⟩ <;> exact hi

/-- Two port commands in no error, the second at the edge after the first. -/
theorem execPort_then {s : State} (hf : s.fatal = false) {i j : Option Instr}
    (hi : ∀ k, i = some k → aloneError s k = none) (hj : ∀ k, j = some k → aloneError s k = none)
    (hb : (portEffect i s.quiet).bound = s.bound) (hft : (portEffect i s.quiet).fatal = s.fatal) :
    execPort i s = .next (portEffect i s.quiet) ∧
      execPort j (portEffect i s.quiet) = .next (portEffect j (portEffect i s.quiet).quiet) :=
  ⟨execPort_ok hf hi, execPort_ok (hft.trans hf) fun k hk => (aloneError_congr hb k).trans (hj k hk)⟩

section Ports

variable {s : State} {w r : Option Instr} (hW : ∀ j, w = some j → j.port = .W) (hR : ∀ j, r = some j → j.port = .R)
include hW hR

/-- W then R: the R command, at the edge after the W command, does its part of the joint edge. -/
theorem reader_after_writer (h : s.CursorInv) (ha : 16 ≤ s.addrW) (ho : orderAllowed s w r true = true) :
    SameReader (portEffect r (portEffect w s.quiet).quiet) (portEffect r (afterW s w)) ∧
      (portEffect r (portEffect w s.quiet).quiet).fault = (portEffect r (afterW s w)).fault := by
  have hq : s.quiet.CursorInv := ⟨h.exp, h.mask, h.front, h.back⟩
  have ha' : (afterW s w).CursorInv := ⟨h.exp, h.mask, h.front, h.back⟩
  have hsame : SameReader (portEffect w s.quiet).quiet (afterW s w) := by
    rw [portEffect_on_W hW]; exact ⟨rfl, rfl, rfl⟩
  have hmask : (portEffect w s.quiet).mask = s.mask := by rw [portEffect_on_W hW]; rfl
  refine ⟨?_, ?_⟩
  · rcases readerIgnores_of_order ha' hW hR ho with hnone | hr
    · obtain ⟨hback, hmem⟩ := portEffect_W_of_nothing_stored hq hW hnone
      have hstore : SameStorage (afterW s w) (portEffect w s.quiet).quiet := by
        refine ⟨hmask, ?_, ?_, hmem⟩ <;> rw [portEffect_on_W hW] <;> rfl
      exact portEffect_R_congr hR hstore hsame hback rfl
    · refine hr.sameReader hsame rfl hmask fun hne => ?_
      exact portEffect_W_front_unread hq ha hW hne
  · have hf1 := portEffect_W_fault hW s.quiet
    have hu := portEffect_R_fault_eq hR (portEffect w s.quiet).quiet hf1
    exact hu.trans (portEffect_R_fault_eq hR (afterW s w) hf1).symm

/-- R then W: each command does its part of the joint edge. -/
theorem writer_after_reader (h : s.CursorInv) (ho : orderAllowed s w r false = true) :
    SameWriter (portEffect (cutToResult s w) (portEffect r s.quiet).quiet) (portEffect w s.quiet) ∧
      SameReader (portEffect r s.quiet) (portEffect r (afterW s w)) ∧
      (portEffect (cutToResult s w) (portEffect r s.quiet).quiet).fault = (portEffect r (afterW s w)).fault := by
  have hq : s.quiet.CursorInv := ⟨h.exp, h.mask, h.front, h.back⟩
  have hstore : SameStorage s.quiet (portEffect r s.quiet).quiet := by
    rw [portEffect_on_R hR]; exact ⟨rfl, rfl, rfl, rfl⟩
  have hsame : SameWriter (portEffect r s.quiet).quiet s.quiet := by
    rw [portEffect_on_R hR]; exact ⟨rfl, rfl, rfl⟩
  rcases writerIgnores_of_order hq hW hR ho with hr | hw
  · obtain ⟨hfront, hfault⟩ := portEffect_of_silent hr s.quiet
    obtain ⟨hwriter, hf1⟩ := portEffect_W_congr hW hstore hsame hfront hfault
    have hafter : portEffect r (afterW s w) = { portEffect r s.quiet with fault := (portEffect w s.quiet).fault } :=
      portEffect_of_silent_fault hr s.quiet _
    rw [hafter]
    exact ⟨hwriter, ⟨rfl, rfl, rfl⟩, hf1⟩
  · obtain ⟨hu, hf⟩ := portEffect_R_unread_le hq hR
    have hafter : afterW s w = s.quiet := by
      show ({ s.quiet with fault := _ } : State) = _
      rw [hw.fault]
    rw [hafter]
    exact ⟨hw.sameWriter (t := (portEffect r s.quiet).quiet) hu hstore hsame hf, ⟨rfl, rfl, rfl⟩,
      (hw.after (t := (portEffect r s.quiet).quiet) hu hstore).fault⟩

end Ports

/-! ### The joint edge put together from the two states -/

/-- The state after W and then R is the joint one but for W's response register, which the second edge silenced. -/
theorem mergePorts_of_W_then_R {s u sR : State} {w r : Option Instr} (hW : ∀ j, w = some j → j.port = .W)
    (hR : ∀ j, r = some j → j.port = .R) (hu : u = portEffect r (portEffect w s.quiet).quiet)
    (h : SameReader u sR) (hf : u.fault = sR.fault) :
    mergePorts s (portEffect w s.quiet) sR = { u with rspW := (portEffect w s.quiet).rspW } := by
  have hform := portEffect_on_R hR (portEffect w s.quiet).quiet
  rw [← hu] at hform
  rw [mergePorts, ← h.front, ← h.rspR, ← h.rspPayR, ← hf, hform, portEffect_on_W hW s.quiet]
  rfl

/-- The state after R and then W is the joint one but for R's response register, which the second edge silenced. -/
theorem mergePorts_of_R_then_W {s u sW sR : State} {w r : Option Instr} (hW : ∀ j, w = some j → j.port = .W)
    (hR : ∀ j, r = some j → j.port = .R) (hu : u = portEffect w (portEffect r s.quiet).quiet)
    (hw : SameWriter u sW) (hr : SameReader (portEffect r s.quiet) sR) (hf : u.fault = sR.fault) :
    mergePorts s sW sR = { u with rspR := (portEffect r s.quiet).rspR } := by
  have hform := portEffect_on_W hW (portEffect r s.quiet).quiet
  rw [← hu] at hform
  rw [mergePorts, ← hw.back, ← hw.mem, ← hw.rspW, ← hr.front, ← hr.rspR, ← hr.rspPayR, ← hf, hform,
    portEffect_on_R hR s.quiet]
  rfl

end Sys2Proof.Machine
end

section

/-! The statements of 20_memory.md, settled. -/

namespace Sys2Proof.Proofs

open Sys2Proof.Machine Sys2Proof.Spec

/-- Settles O24: the BIND's clauses of the error check leave only a legal exponent beside nothing or NOPs. -/
theorem bindEdgePerformsBind : Obligations.BindEdgePerformsBind := by
  intro s e d n base h hc
  rcases commit_ok h.noFatal (decodeEdge_onPorts h.decoded) h.noError with ⟨n', b', hc', hn, hw, hr, -⟩ | ⟨hc', -⟩
  · cases hc.symm.trans hc'
    exact ⟨(edgeStep_of_commits h).trans (commit_eq_exec_bind hc), hn, hw, hr⟩
  · exact absurd hc (hc' n base)

/-- Settles O25: the R command finds the pre-edge state but for FAULT, and its part depends on FAULT by the flag alone. -/
theorem edgeCommitsBothRoles : Obligations.EdgeCommitsBothRoles := by
  intro s e d h hb
  have hR : ∀ i, d.r = some i → i.port = .R := fun i hi => ((decodeEdge_onPorts h.decoded).r i hi).1
  obtain ⟨hfront, hpay, hvalid, hrsp⟩ := portEffect_R_fault hR s.quiet (portEffect d.w s.quiet).fault
  exact ⟨_, _, _, execPort_ok h.noFatal fun j hj => aloneError_of_commits h hb (.inl hj),
    execPort_ok h.noFatal fun j hj => aloneError_of_commits h hb (.inr hj), edgeStep_of_ports h hb,
    rfl, rfl, rfl, hfront, hpay, hvalid, hrsp, rfl⟩

/-- Settles O26: W's command leaves `f1`, which R's command finds. -/
theorem faultIsSerialised : Obligations.FaultIsSerialised := by
  intro s e d h hb
  have hp := decodeEdge_onPorts h.decoded
  have hf1 := afterW_fault (fun j hj => (hp.w j hj).1) s
  refine ⟨_, edgeStep_of_ports h hb, portEffect_R_fault_eq (fun j hj => (hp.r j hj).1) _ hf1, fun hw => ?_, fun hr => ?_⟩
  · simp [portsState, hw, portEffect, effect]
  · rw [← hf1]
    rcases hr with hr | hr <;> simp [portsState, hr, portEffect, effect]

/-- Settles O37, over the ways an edge can go: only a W command writes, and at most FREE slots. -/
theorem storageWrittenOnlyInFreeSlots : Obligations.StorageWrittenOnlyInFreeSlots :=
  fun _ _ _ _ h hstep ha => (edgeStep_cases hstep).readByte_off h ha

/-- Settles O38: the written slots are among the FREE ones from BACK on and the read ones among the UNREAD ones from FRONT
on, which are MASK different distances from FRONT; the reserved slot is at distance MASK. -/
theorem writtenAndReadSlotsAreDisjoint : Obligations.WrittenAndReadSlotsAreDisjoint := by
  intro s ⟨⟨haddr, _, _, _⟩, h, _⟩
  have hsum := free_add_unread h
  have hdisj : ∀ i j, i < s.free.toNat → j < s.unread.toNat →
      s.slot (s.advance s.back i) ≠ s.slot (s.advance s.front j) := fun i j => free_slot_ne_unread_slot h haddr
  refine ⟨fun e d t hd hb hstep => ?_, storedCount_le_free h, readCount_le_unread h, hdisj, hsum, fun i hi => ?_,
    fun j hj => slot_ne_reserved h haddr (by omega)⟩
  · rw [edgeStep_of_ports hd hb] at hstep
    injection hstep with ht
    subst ht
    have hp := decodeEdge_onPorts hd.decoded
    have ring : RingMove s (portsState s d) _ _ := ports_ring h haddr hp
    rw [queuePushed_eq_storedBytes h, ← storedBytes_length]
    refine ⟨fun j hj => ?_, rfl, ring.kept, fun m hm => ?_, fun i j hi hj => ?_⟩
    · rw [ring.stored j hj, List.getElem?_eq_getElem hj]
    · obtain ⟨m', hm'⟩ := portsState_withMem h hp hm
      exact ⟨m', (edgeStep_of_ports (commits_withMem hd m) hb).trans (congrArg _ hm')⟩
    · exact hdisj i j (Nat.lt_of_lt_of_le hi ring.nle) (Nat.lt_of_lt_of_le hj (readCount_le_unread h d.r))
  · rw [back_advance h]
    exact slot_ne_reserved h haddr (by omega)

/-- Settles O53: in each allowed order the first command leaves what the second one reads, so each does its part of the
joint edge. -/
theorem edgeIsSequential : Obligations.EdgeIsSequential := by
  intro s e d wFirst h hd hb ho
  have hp := decodeEdge_onPorts hd.decoded
  have hW : ∀ j, d.w = some j → j.port = .W := fun j hj => (hp.w j hj).1
  have hR : ∀ j, d.r = some j → j.port = .R := fun j hj => (hp.r j hj).1
  have hcut := cutToResult_port (s := s) hW
  have okW := aloneError_cutToResult (s := s) fun j hj => aloneError_of_commits hd hb (.inl hj)
  have okR : ∀ j, d.r = some j → aloneError s j = none := fun j hj => aloneError_of_commits hd hb (.inr hj)
  have hstep := edgeStep_of_ports hd hb
  cases wFirst with
  | true =>
    obtain ⟨hreader, hfault⟩ := reader_after_writer hW hR h.cursors h.storage.addrW ho
    have hrun := execPort_then hd.noFatal okW okR (by rw [portEffect_on_W hcut]; rfl) (by rw [portEffect_on_W hcut]; rfl)
    have hsame : portEffect (cutToResult s d.w) s.quiet = portEffect d.w s.quiet := portEffect_cutToResult s.quiet d.w
    rw [hsame] at hrun
    exact ⟨_, _, _, hstep, hrun, mergePorts_of_W_then_R hW hR rfl hreader hfault⟩
  | false =>
    obtain ⟨hwriter, hreader, hfault⟩ := writer_after_reader hW hR h.cursors ho
    have hrun := execPort_then hd.noFatal okR okW (by rw [portEffect_on_R hR]; rfl) (by rw [portEffect_on_R hR]; rfl)
    exact ⟨_, _, _, hstep, hrun, mergePorts_of_R_then_W hcut hR rfl hwriter hreader hfault⟩

/-- Settles O22: the merge adds nothing to a command alone, and its error and FATAL go the same way as in `exec`. -/
theorem stepRunsTheLoneCommand : Obligations.StepRunsTheLoneCommand := by
  intro s e rest i hin hr hd hw
  have hnext : s.nextEdge = (e, { s with inputs := rest }) := by simp [State.nextEdge, hin]
  rw [step, hnext]
  exact edgeStep_alone hr hd hw

/-- Settles O59, by the read-after-write rules of the storage list. -/
theorem storageReadAfterWrite : Obligations.StorageReadAfterWrite :=
  fun s a _ v => ⟨readByte_writeByte_same s a v, readByte_writeByte_other s v⟩

end Sys2Proof.Proofs
end

section

/-! The statements about the encoding (30_encoding.md): the checks of the decoder, what an assembled command's word is,
and that decoder and encoder are inverse to each other. -/

namespace Sys2Proof.Machine

open Sys2Proof.Spec

/-! ### The checks of the decoder, in the order of 30 R88 -/

theorem opOf_lt_of_kindOf {w : Word} {k : Kind} (hk : kindOf w = some k) : (opOf w).toNat < 8 := by
  rw [opOf_of_kindOf hk]
  cases k <;> decide

theorem exists_kindOf {w : Word} (hop : (opOf w).toNat < 8) : ∃ k, kindOf w = some k := by
  unfold kindOf
  interval_cases (opOf w).toNat <;> exact ⟨_, rfl⟩

/-- The reserved opcodes are 0x8 to 0xF (30 R86). -/
theorem kindOf_of_reserved_opcode {w : Word} (hop : 8 ≤ (opOf w).toNat) : kindOf w = none :=
  Option.eq_none_iff_forall_ne_some.mpr fun _ hk => Nat.not_lt.mpr hop (opOf_lt_of_kindOf hk)

theorem decode_of_reserved_opcode {w : Word} (hk : kindOf w = none) (p : Port) (addr : Nat)
    (pay : Payload (payLen w)) : decode p w addr pay = .error .illegalOpcode := by
  unfold decode
  split
  · rfl
  · rename_i k hk'; cases hk.symm.trans hk'

theorem decode_of_legal_port {p : Port} {w : Word} {k : Kind} (hk : kindOf w = some k) (hl : k.legalOn p = true)
    (addr : Nat) (pay : Payload (payLen w)) :
    decode p w addr pay =
      if w &&& k.mask = k.pattern then .ok (assemble p w addr pay k hk) else .error .reservedField := by
  unfold decode
  split
  · rename_i hnone; cases hk.symm.trans hnone
  · rename_i k' hk'
    cases hk.symm.trans hk'
    rw [if_pos hl]

theorem decode_of_match {p : Port} {w : Word} {k : Kind} (hk : kindOf w = some k) (hl : k.legalOn p = true)
    (hm : w &&& k.mask = k.pattern) (addr : Nat) (pay : Payload (payLen w)) :
    decode p w addr pay = .ok (assemble p w addr pay k hk) :=
  (decode_of_legal_port hk hl addr pay).trans (if_pos hm)

theorem decode_of_mismatch {p : Port} {w : Word} {k : Kind} (hk : kindOf w = some k) (hl : k.legalOn p = true)
    (hm : w &&& k.mask ≠ k.pattern) (addr : Nat) (pay : Payload (payLen w)) :
    decode p w addr pay = .error .reservedField :=
  (decode_of_legal_port hk hl addr pay).trans (if_neg hm)

/-! ### The assembled command -/

@[simp] theorem assemble_kind (p : Port) (w : Word) (addr : Nat) (pay : Payload (payLen w)) (k : Kind)
    (hk : kindOf w = some k) : (assemble p w addr pay k hk).kind = k := by
  cases k <;> rfl

/-- A decoded command is the assembly of its word in its own row, which the word matches. -/
theorem decode_eq_assemble {p : Port} {w : Word} {addr : Nat} {pay : Payload (payLen w)} {i : Instr}
    (h : decode p w addr pay = .ok i) :
    w &&& i.kind.mask = i.kind.pattern ∧ ∃ hk : kindOf w = some i.kind, i = assemble p w addr pay i.kind hk := by
  obtain ⟨k, hk, -, hm, rfl⟩ := decode_ok h
  rw [assemble_kind]
  exact ⟨hm, hk, rfl⟩

theorem unusedFieldsZero_of_match {w : Word} {k : Kind} (hm : w &&& k.mask = k.pattern) : unusedFieldsZero k w := by
  have hrsv := match_rsv hm
  have hclr := match_clr hm
  have himm := match_imm hm
  have hlen := match_len hm
  cases k <;> simp_all [unusedFieldsZero]

/-- A word whose unused fields are 0 has no other bits than its opcode and its command's operands (30 R84, R85). -/
theorem encode_assemble {w : Word} {k : Kind} (hk : kindOf w = some k) (hz : unusedFieldsZero k w) (p : Port)
    (addr : Nat) (pay : Payload (payLen w)) : encode (assemble p w addr pay k hk) = w := by
  have hrsv : rsvOf w = 0 := by cases k <;> exact hz.1
  refine Eq.trans ?_ (eq_fields w hrsv).symm
  rw [opOf_of_kindOf hk]
  cases k <;> simp_all [unusedFieldsZero, assemble, encode, Kind.pattern]

/-! ### The word of a command -/

theorem encodeMatches : ∀ i : Instr, Laws.EncodeMatches.Statement i
  | .nop p => Laws.EncodeMatches.nop p
  | .bind n base => Laws.EncodeMatches.bind n base
  | .count p => Laws.EncodeMatches.count p
  | .pushb v => Laws.EncodeMatches.pushb v
  | .pushn len pay => Laws.EncodeMatches.pushn len pay
  | .popb => Laws.EncodeMatches.popb
  | .popn len => Laws.EncodeMatches.popn len
  | .chkf p => Laws.EncodeMatches.chkf p
  | .chkfClr => Laws.EncodeMatches.chkfClr

theorem encode_match (i : Instr) : encode i &&& i.kind.mask = i.kind.pattern := (encodeMatches i).1

theorem kindOf_encode (i : Instr) : kindOf (encode i) = some i.kind := (encodeMatches i).2

/-- A row's mask covers its opcode and exactly the fields its command does not use (30 R85, R88). -/
theorem match_iff_unusedFieldsZero {w : Word} {k : Kind} (hk : kindOf w = some k) :
    w &&& k.mask = k.pattern ↔ unusedFieldsZero k w := by
  refine ⟨unusedFieldsZero_of_match, fun hz => ?_⟩
  have hm := encode_match (assemble .C w 0 (Payload.zeros _) k hk)
  rwa [encode_assemble hk hz, assemble_kind] at hm

theorem legalOn_port {i : Instr} (hw : i.wellFormed = true) : i.kind.legalOn i.port = true := by
  cases i with
  | count p => exact hw
  | chkf p => exact hw
  | _ => rfl

theorem pushn_congr {len len' : Cursor} {pay : Payload len.toNat} {pay' : Payload len'.toNat} (hl : len = len')
    (hp : pay.bytes = pay'.bytes) : Instr.pushn len pay = Instr.pushn len' pay' := by
  subst hl
  rw [Payload.ext hp]

/-- Assembling a command's word gives the command back, if C has its address and W its payload beside the word. -/
theorem assemble_encode {i : Instr} {addr : Nat} {pay : Payload (payLen (encode i))}
    (ha : i.port = .C → addr = addrOf i) (hp : i.port = .W → pay = payOf i) :
    assemble i.port (encode i) addr pay i.kind (kindOf_encode i) = i := by
  cases i with
  | nop p => rfl
  | bind n base =>
    obtain rfl : addr = base := ha rfl
    exact congrArg (Instr.bind · addr) (immOf_fields _ _ _ _)
  | count p => rfl
  | pushb v => exact congrArg Instr.pushb (immOf_fields _ _ _ _)
  | pushn len q =>
    obtain rfl := hp rfl
    exact pushn_congr (lenOf_fields _ _ _ _) rfl
  | popb => rfl
  | popn len => exact congrArg Instr.popn (lenOf_fields _ _ _ _)
  | chkf p => rfl
  | chkfClr => rfl

theorem decode_encode {i : Instr} (hw : i.wellFormed = true) {addr : Nat} {pay : Payload (payLen (encode i))}
    (ha : i.port = .C → addr = addrOf i) (hp : i.port = .W → pay = payOf i) :
    decode i.port (encode i) addr pay = .ok i :=
  (decode_of_match (kindOf_encode i) (legalOn_port hw) (encode_match i) addr pay).trans
    (congrArg _ (assemble_encode ha hp))

theorem decodeEdge_ofInstr {i : Instr} (hw : i.wellFormed = true) : decodeEdge (Edge.ofInstr i) = .ok (alone i) := by
  unfold Edge.ofInstr alone
  cases hport : i.port with
  | C =>
    have hd := decode_encode hw (addr := addrOf i) (pay := Payload.zeros _) (fun _ => rfl) (by simp [hport])
    rw [hport] at hd
    simp [decodeEdge, decodeC, decodeW, decodeR, hd, Except.map]
  | W =>
    have hd := decode_encode hw (addr := 0) (pay := payOf i) (by simp [hport]) (fun _ => rfl)
    rw [hport] at hd
    simp [decodeEdge, decodeC, decodeW, decodeR, hd, Except.map]
  | R =>
    have hd := decode_encode hw (addr := 0) (pay := Payload.zeros _) (by simp [hport]) (by simp [hport])
    rw [hport] at hd
    simp [decodeEdge, decodeC, decodeW, decodeR, hd, Except.map]

/-! ### The response word (30 R90) -/

theorem response_cnt (cnt : Cursor) (data : Byte) (flag : Bool) :
    (response cnt data flag).extractLsb' 0 16 = cnt := by
  simp [response, BitVec.extractLsb'_or, extractLsb'_place_same, extractLsb'_place_off]

theorem response_data (cnt : Cursor) (data : Byte) (flag : Bool) :
    (response cnt data flag).extractLsb' 16 8 = data := by
  simp [response, BitVec.extractLsb'_or, extractLsb'_place_same, extractLsb'_place_off]

theorem response_flag (cnt : Cursor) (data : Byte) (flag : Bool) : (response cnt data flag).getLsbD 24 = flag := by
  simp [response, getElem_place, bit]

theorem response_unused (cnt : Cursor) (data : Byte) (flag : Bool) :
    (response cnt data flag).extractLsb' 25 7 = 0#7 := by
  simp [response, BitVec.extractLsb'_or, extractLsb'_place_off]

end Sys2Proof.Machine
end

section

/-! The statements of 30_encoding.md, settled. -/

namespace Sys2Proof.Proofs

open Sys2Proof.Machine Sys2Proof.Spec

/-- Settles O2: the word of a command matches its row on its port, and its operands are assembled again. -/
theorem decodeOfEncodeIsTheCommand : Obligations.DecodeOfEncodeIsTheCommand :=
  fun _ hw => decodeEdge_ofInstr hw

/-- Settles O3: matching the row leaves no bit of the word that the command does not use. -/
theorem encodeOfDecodeIsTheWord : Obligations.EncodeOfDecodeIsTheWord := by
  intro p w addr pay i h
  obtain ⟨k, hk, -, hm, rfl⟩ := decode_ok h
  exact ⟨encode_assemble hk (unusedFieldsZero_of_match hm) p addr pay, decode_port h⟩

/-- Settles O4, one lemma for each check of the decoder. -/
theorem decodeChecksInOrder : Obligations.DecodeChecksInOrder := by
  refine fun p w addr pay => ⟨fun hop => ?_, fun hop => ?_⟩
  · exact decode_of_reserved_opcode (kindOf_of_reserved_opcode hop) p addr pay
  · obtain ⟨k, hk⟩ := exists_kindOf hop
    refine ⟨k, hk, fun hl => decode_of_illegal_port hk hl addr pay, fun hl hm => decode_of_mismatch hk hl hm addr pay,
      fun hl hm => ⟨_, decode_of_match hk hl hm addr pay, ?_⟩⟩
    exact encode_assemble hk (unusedFieldsZero_of_match hm) p addr pay

/-- Settles O5: a row's mask and match say that the unused fields are 0. -/
theorem unusedFieldIsReserved : Obligations.UnusedFieldIsReserved := by
  intro p w addr pay k hk hl
  rw [← match_iff_unusedFieldsZero hk]
  exact ⟨fun hm => ⟨_, decode_of_match hk hl hm addr pay⟩, fun hm => decode_of_mismatch hk hl hm addr pay⟩

/-- Settles O6: the operands are those of the assembly, and the row's match fixes CLR. -/
theorem operandsAreTheFields : Obligations.OperandsAreTheFields := by
  refine fun p w addr pay =>
    ⟨fun v h => ?_, fun n b h => ?_, fun len q h => ?_, fun len h => ?_, fun q h => ?_, fun h => ?_⟩ <;>
    obtain ⟨hm, hk, hi⟩ := decode_eq_assemble h
  · cases hi; rfl
  · cases hi; exact ⟨rfl, rfl⟩
  · injection hi with hlen hq
    subst hlen
    exact ⟨rfl, congrArg Payload.bytes (eq_of_heq hq)⟩
  · cases hi; rfl
  · exact match_clr hm
  · exact match_clr hm

/-- Settles O1, by evaluating the decoder on each of the words. -/
theorem specWordsDecode : Obligations.SpecWordsDecode :=
  ⟨by decide, by decide, by decide, by decide, by decide, by decide, by decide, by decide, by decide, by decide,
    by decide⟩

/-- Settles O7, field by field. -/
theorem responseWordFields : Obligations.ResponseWordFields :=
  fun cnt data flag =>
    ⟨response_cnt cnt data flag, response_data cnt data flag, response_flag cnt data flag, response_unused cnt data flag⟩

/-- Settles O27: a reset edge and an edge in FATAL do not look at what the ports present. -/
theorem notReadyAcceptsNothing : Obligations.NotReadyAcceptsNothing := by
  intro s e hready
  cases hr : e.rst with
  | true => rw [(EdgeOutcome.reset hr rfl).edgeStep_eq, (EdgeOutcome.reset rfl rfl).edgeStep_eq]
  | false =>
    have hf : s.fatal = true := by simpa [State.ready, hr] using hready
    rw [(EdgeOutcome.frozen hr hf rfl).edgeStep_eq, (EdgeOutcome.frozen rfl hf rfl).edgeStep_eq]

end Sys2Proof.Proofs
end

section

/-! What the statements about the control and query commands need: the zero-capacity buffer, a script's next command run
at its edge, and an edge at which a CHKF.CLR stands beside a W command. -/

namespace Sys2Proof.Machine

open Sys2Proof.Spec

/-! ### The buffer of EXP 0 (40 R112) -/

theorem State.CursorInv.mask_of_exp_zero {s : State} (h : s.CursorInv) (he : s.exp = 0) : s.mask = 0 := by
  rw [h.mask, he]
  rfl

theorem free_eq_zero_of_mask {s : State} (hm : s.mask = 0) : s.free = 0 := by
  rw [State.free, unread_eq_zero_of_mask hm, hm]
  rfl

theorem clamp_zero (len : Cursor) : clamp len 0 = 0 := Nat.min_zero _

/-- Without a free slot a PUSHN of any length stores nothing. -/
theorem effect_pushn_of_no_free {s : State} (h : s.CursorInv) (hn : s.free = 0) (len : Cursor)
    (pay : Payload len.toNat) : effect (.pushn len pay) s = { s with rspW := ⟨true, response 0 0 false⟩ } := by
  have hW : ∀ j, some (Instr.pushn len pay) = some j → j.port = .W := by rintro j ⟨⟩; rfl
  have hc : clamp len s.free = 0 := by rw [hn, clamp_zero]
  have hnone : storedBytes s (some (.pushn len pay)) = [] := by simp [storedBytes, hc]
  obtain ⟨hback, hmem⟩ : (effect (.pushn len pay) s).back = s.back ∧ (effect (.pushn len pay) s).mem = s.mem :=
    portEffect_W_of_nothing_stored h hW hnone
  have hrsp : (effect (.pushn len pay) s).rspW = ⟨true, response 0 0 false⟩ := by simp [effect, hc]
  rw [effect_on_W rfl, hrsp, hback, hmem]
  rfl

/-- Without an unread byte a POPN of any length answers none. -/
theorem effect_popn_of_no_unread {s : State} (h : s.CursorInv) (hu : s.unread = 0) (len : Cursor) :
    effect (.popn len) s = { s with rspR := ⟨true, response 0 0 false⟩, rspPayR := [] } := by
  have hc : clamp len s.unread = 0 := by rw [hu, clamp_zero]
  have hpay : s.readSplit s.front 0 = [] := List.eq_nil_of_length_eq_zero (readSplit_length s s.front 0)
  simp only [effect, hc, hpay, h.advance_zero h.front_lt]
  rfl

/-! ### A script's next command, run at its edge -/

theorem ofInstr_rst (i : Instr) : (Edge.ofInstr i).rst = false := by
  unfold Edge.ofInstr
  cases i.port <;> rfl

/-- The step at whose edge `i` alone is presented runs `i` (20 R60). -/
theorem step_ofInstr {s : State} {i : Instr} {rest : List Edge} (hin : s.inputs = Edge.ofInstr i :: rest)
    (hw : i.wellFormed = true) : step s = exec i { s with inputs := rest } :=
  Proofs.stepRunsTheLoneCommand s _ rest i hin (ofInstr_rst i) (decodeEdge_ofInstr hw) hw

theorem run_succ {s t : State} (h : step s = .next t) (k : Nat) :
    Host.Core.run core (k + 1) s = Host.Core.run core k t := by
  have h' : core.step s = .next t := h
  simp only [Host.Core.run, h']

/-- A PUSHB at the next edge of a full bound state is rejected and sets FAULT (41 R140). -/
theorem step_pushb_rejected {s : State} {v : Byte} {rest : List Edge} (hin : s.inputs = Edge.ofInstr (.pushb v) :: rest)
    (hfull : ¬ s.unread < s.mask) (hf : s.fatal = false) (hb : s.bound = true) :
    ∃ t, step s = .next t ∧ t.rspW = ⟨true, response 0 0 false⟩ ∧ t.fault = true ∧
      t.inputs = rest ∧ t.fatal = false ∧ t.bound = true := by
  have heff := effect_pushb_of_not_lt (s := ({ s with inputs := rest } : State).quiet) hfull v
  refine ⟨_, (step_ofInstr hin rfl).trans (exec_of_bound rfl rfl (by simp [Instr.port]) hf hb), ?_⟩
  rw [heff]
  exact ⟨rfl, rfl, rfl, hf, hb⟩

/-- A CHKF at the next edge of a bound state answers FAULT on its own port and clears it (40 R115). -/
theorem step_chkf {s : State} {p : Port} {rest : List Edge} (hin : s.inputs = Edge.ofInstr (.chkf p) :: rest)
    (hp : p ≠ .C) (hf : s.fatal = false) (hb : s.bound = true) :
    ∃ t, step s = .next t ∧ (if p = .W then t.rspW else t.rspR) = ⟨true, response 0 0 s.fault⟩ ∧ t.fault = false ∧
      t.inputs = rest ∧ t.fatal = false ∧ t.bound = true := by
  have hw : (Instr.chkf p).wellFormed = true := bne_iff_ne.mpr hp
  refine ⟨_, (step_ofInstr hin hw).trans (exec_of_bound hw rfl hp hf hb), ?_, ?_⟩
  · cases p with
    | C => exact absurd rfl hp
    | W => rfl
    | R => rfl
  · simp [effect, hf, hb]

/-! ### An edge with a CHKF.CLR (40 R118) -/

/-- An edge at which R presents a command other than NOP binds nothing: a BIND would be in conflict with it (R182). -/
theorem binds_eq_false_of_active_r {s : State} {e : Edge} {d : Accepted} (h : Commits s e d)
    (hr : active d.r = true) : binds d = false := by
  by_contra hb
  obtain ⟨n, b, hc⟩ := (binds_iff d).mp (by simpa using hb)
  obtain ⟨-, -, -, hr'⟩ := Proofs.bindEdgePerformsBind s e d n b h hc
  exact absurd (hr.symm.trans hr') (by decide)

/-- When all unread bytes leave the ring, FRONT goes to where BACK was and just the bytes that join are left. -/
theorem RingMove.only_stored_left {s t : State} {bs : List Byte} (r : RingMove s t bs s.unread.toNat) (h : s.CursorInv)
    (ht : t.CursorInv) (ha : 16 ≤ s.addrW) : t.front = s.back ∧ t.unread.toNat = bs.length ∧ t.queue = bs := by
  refine ⟨r.front.trans h.advance_unread, ?_, ?_⟩
  · rw [r.unread h ht, Nat.sub_self, Nat.zero_add]
  · rw [r.queue h ht ha, ← queue_length, List.drop_length, List.nil_append]

end Sys2Proof.Machine
end

section

/-! The statements of 40_control_query.md, settled. -/

namespace Sys2Proof.Proofs

open Sys2Proof.Machine Sys2Proof.Spec

/-- Settles O41: with EXP = 0, MASK is 0, so nothing is unread and nothing free. -/
theorem zeroCapacityBuffer : Obligations.ZeroCapacityBuffer := by
  refine ⟨fun base s hf => ?_, fun s h hf hb he => ?_⟩
  · have ok : aloneError s (.bind 0 base) = none := by rw [aloneError_bind]; rfl
    exact ⟨_, exec_of_ok hf ok, rfl, rfl, rfl, rfl, rfl⟩
  · have hm := h.mask_of_exp_zero he
    have hu := unread_eq_zero_of_mask hm
    have hempty := h.empty_iff.mpr hu
    have hfull : ¬ s.quiet.unread < s.quiet.mask := by rw [quiet_unread, quiet_mask, hu, hm]; decide
    have hq : s.quiet.CursorInv := ⟨h.exp, h.mask, h.front, h.back⟩
    refine ⟨hm, if_pos he, hempty, beq_iff_eq.mpr (hu.trans hm.symm), fun v => ?_, fun len pay => ?_, ?_, fun len => ?_⟩ <;>
      rw [exec_of_bound rfl rfl (by simp [Instr.port]) hf hb]
    · rw [effect_pushb_of_not_lt hfull]; rfl
    · rw [effect_pushn_of_no_free hq (free_eq_zero_of_mask hm)]; rfl
    · rw [effect_popb_of_eq (s := s.quiet) (beq_iff_eq.mp hempty)]; rfl
    · rw [effect_popn_of_no_unread hq hu]; rfl

/-- Settles O57: the rejected push sets FAULT, the first CHKF answers and clears it, and the second finds it cleared. -/
theorem overflowIsReportedOnce : Obligations.OverflowIsReportedOnce := by
  intro s v p q rest hf hb hfull hp hq hin
  obtain ⟨t1, step1, hrsp1, hfault1, hin1, hf1, hb1⟩ := step_pushb_rejected hin hfull hf hb
  obtain ⟨t2, step2, hrsp2, hfault2, hin2, hf2, hb2⟩ := step_chkf hin1 hp hf1 hb1
  obtain ⟨t3, step3, hrsp3, hfault3, -⟩ := step_chkf hin2 hq hf2 hb2
  rw [hfault1] at hrsp2
  rw [hfault2] at hrsp3
  refine ⟨t1, t2, t3, run_succ step1 0, hrsp1, hfault1, ?_, hrsp2, hfault2, ?_, hrsp3, hfault3⟩
  · exact (run_succ step1 1).trans (run_succ step2 0)
  · exact (run_succ step1 2).trans ((run_succ step2 1).trans (run_succ step3 0))

/-- Settles O58: the CHKF.CLR takes all unread bytes off the ring, and W's bytes join it at the old BACK. -/
theorem clearLeavesSameEdgePush : Obligations.ClearLeavesSameEdgePush := by
  intro s e d h hd hr
  have hb := binds_eq_false_of_active_r hd (by rw [hr]; rfl)
  have hp := decodeEdge_onPorts hd.decoded
  have ring : RingMove s (portsState s d) _ _ := ports_ring h.cursors h.storage.addrW hp
  rw [hr] at ring
  rw [← storedBytes_length, queuePushed_eq_storedBytes h.cursors]
  exact ⟨_, edgeStep_of_ports hd hb,
    ring.only_stored_left h.cursors (ports_cursorInv h.cursors h.storage.addrW hp) h.storage.addrW⟩

/-- Settles O33: a lone BIND is in error exactly when its exponent is above 16. -/
theorem badExponentIsFatal : Obligations.BadExponentIsFatal := by
  intro s n base hf hn
  have he : aloneError s (.bind n base) = some (.badExponent, .C) := (aloneError_bind s n base).trans (if_pos hn)
  rw [exec_of_error hf he]
  rfl

/-- Settles O39: a NOP is in no error, and accepted or not it only silences the responses. -/
theorem nopCompletes : Obligations.NopCompletes := by
  intro p s
  cases hf : s.fatal with
  | true => exact exec_of_fatal hf _
  | false => exact exec_of_ok hf (aloneError_nop s p)

/-- Settles O40: with a legal exponent a lone BIND is in no error. -/
theorem bindCompletes : Obligations.BindCompletes := by
  intro n base s hf hn
  have he : aloneError s (.bind n base) = none := (aloneError_bind s n base).trans (if_neg (Nat.not_lt.mpr hn))
  rw [exec_of_ok hf he]
  rfl

/-- Settles O42, port by port. -/
theorem countCompletes : Obligations.CountCompletes :=
  fun _ hf hb => ⟨exec_of_bound rfl rfl (by decide) hf hb, exec_of_bound rfl rfl (by decide) hf hb⟩

/-- Settles O47, port by port. -/
theorem chkfCompletes : Obligations.ChkfCompletes :=
  fun _ hf hb => ⟨exec_of_bound rfl rfl (by decide) hf hb, exec_of_bound rfl rfl (by decide) hf hb⟩

/-- Settles O48. -/
theorem chkfClrCompletes : Obligations.ChkfClrCompletes :=
  fun _ hf hb => exec_of_bound rfl rfl (by decide) hf hb

end Sys2Proof.Proofs
end

section

/-! The reference queue (41 R143, 42 R166): what an edge takes from it, adds to it and answers of it. -/

namespace Sys2Proof.Machine

open Sys2Proof.Spec

/-! ### What an R command takes from the queue and answers of it -/

/-- The oldest byte of the queue stands at FRONT (20 R53). -/
theorem queue_head? {s : State} (h : s.CursorInv) (hne : s.front ≠ s.back) :
    s.queue.head? = some (s.readSlot s.front) := by
  have hu : s.unread.toNat ≠ 0 := fun h0 => hne (h.unread_eq_zero_iff.mp h0)
  simp [State.queue, List.head?_range, hu, State.unreadIndex, h.advance_zero h.front_lt]

/-- The bytes an R command takes off the ring are those it removes from the queue. -/
theorem queueRemoved_eq_removedCount {s : State} (h : s.CursorInv) (r : Option Instr) :
    queueRemoved s.queue r = removedCount s r := by
  cases r with
  | none => rfl
  | some i =>
    cases i with
    | popb =>
      have hz := h.unread_eq_zero_iff
      by_cases he : s.front = s.back
      · simp [queueRemoved, removedCount, queue_length, he, hz.mpr he]
      · have hpos : 1 ≤ s.unread.toNat := Nat.one_le_iff_ne_zero.mpr fun h0 => he (hz.mp h0)
        simp [queueRemoved, removedCount, queue_length, he, hpos]
    | popn len => simp only [queueRemoved, removedCount, queue_length, clamp]
    | chkfClr => exact queue_length s
    | _ => rfl

/-- A POPN's payload is the front of the queue (42 R162). -/
theorem effect_popn_payload_eq_take {s : State} (h : s.CursorInv) (len : Cursor) :
    (effect (.popn len) s).rspPayR = s.queue.take len.toNat := by
  rw [effect_popn_payload h, State.queue, ← List.map_take, List.take_range]
  rfl

/-- An R command's effect answers a pop of the queue. -/
theorem popAnswers_of_portEffect {s t : State} (h : s.CursorInv) {r : Option Instr}
    (hrsp : t.rspR = (portEffect r s).rspR) (hpay : t.rspPayR = (portEffect r s).rspPayR) :
    popAnswers s.queue r t := by
  cases r with
  | none => trivial
  | some i =>
    cases i with
    | popb =>
      by_cases he : s.front = s.back
      · rw [portEffect, effect_popb_of_eq he] at hrsp hpay
        rw [queue_of_cursors he]
        exact ⟨hrsp, hpay⟩
      · rw [portEffect, effect_popb_of_ne he] at hrsp hpay
        obtain ⟨q, hq⟩ := List.head?_eq_some_iff.mp (queue_head? h he)
        rw [hq]
        exact ⟨hrsp, hpay⟩
    | popn len =>
      rw [popAnswers, queue_length, hpay, portEffect, effect_popn_payload_eq_take h]
      exact ⟨hrsp, rfl⟩
    | _ => trivial

/-! ### What an edge makes of the queue -/

/-- An edge that commits without BIND takes off what R removes, and puts behind the rest what W adds. -/
theorem portsState_queue {s : State} (h : s.Inv) {d : Accepted} (hp : d.OnPorts) :
    (portsState s d).queue = s.queue.drop (queueRemoved s.queue d.r) ++ queuePushed s.mask.toNat s.queue d.w := by
  have ha := h.storage.addrW
  rw [queueRemoved_eq_removedCount h.cursors, queuePushed_eq_storedBytes h.cursors]
  exact (ports_ring h.cursors ha hp).queue h.cursors (ports_cursorInv h.cursors ha hp) ha

theorem portsState_popAnswers {s : State} (h : s.CursorInv) (d : Accepted) :
    popAnswers s.queue d.r (portsState s d) :=
  have ha : (afterW s d.w).CursorInv := ⟨h.exp, h.mask, h.front, h.back⟩
  popAnswers_of_portEffect ha rfl rfl

/-- Outside reset, an edge that accepts nothing leaves the queue (60 R184, R185). -/
theorem EdgeOutcome.queue_of_not_accepted {s t : State} {e : Edge} (o : EdgeOutcome s e t) (hr : e.rst = false)
    (h : s.fatal = true ∨ firstError s e ≠ none) : t.queue = s.queue := by
  have committed : ∀ d, Commits s e d → False := fun d hd =>
    h.elim (fun hf => absurd (hd.noFatal.symm.trans hf) (by decide)) fun he =>
      he ((firstError_of_decoded hd.decoded).trans hd.noError)
  cases o with
  | reset hr' ht => exact absurd (hr.symm.trans hr') (by decide)
  | frozen hr hf ht => subst ht; rfl
  | error hr hf x p hx ht => subst ht; rfl
  | bind hr hf d hd hs n b hc hn hw hv ht => exact (committed d ⟨hr, hf, hd, hs⟩).elim
  | ports hr hf d hd hs hc ht => exact (committed d ⟨hr, hf, hd, hs⟩).elim

end Sys2Proof.Machine
end

section

/-! The statements of 41_byte_transfer.md about the queue and about the byte transfers alone, settled. -/

namespace Sys2Proof.Proofs

open Sys2Proof.Machine Sys2Proof.Spec

/-- Settles O55: a commit moves the ring, whose unread bytes are the queue; BIND and reset make the cursors meet; and an
edge that accepts nothing touches neither cursors nor storage. -/
theorem edgeRefinesTheQueue : Obligations.EdgeRefinesTheQueue := by
  intro s e h
  obtain ⟨t, hstep, o⟩ := edgeStep_outcome s e
  refine ⟨t, hstep, fun d hd hb => ?_, fun d hd hb => ?_, fun hr => ?_, o.queue_of_not_accepted⟩
  · cases hstep.symm.trans (edgeStep_of_ports hd hb)
    exact ⟨portsState_queue h (decodeEdge_onPorts hd.decoded), portsState_popAnswers h.cursors d⟩
  · obtain ⟨n, b, hc⟩ := (binds_iff d).mp hb
    cases eq_effect_of_bind hstep hd hc
    exact queue_of_cursors rfl
  · cases eq_resetEdge_of_reset hstep hr
    exact queue_of_cursors rfl

/-- Settles O43: a lone PUSHB in a bound state has its effect, which the comparison of UNREAD with MASK decides. -/
theorem pushbCompletes : Obligations.PushbCompletes := by
  intro v s hf hb
  rw [exec_of_bound rfl rfl (by simp [Instr.port]) hf hb]
  refine ⟨fun hlt => ?_, fun hfull => ?_⟩
  · rw [effect_pushb_of_lt (s := s.quiet) hlt]; rfl
  · rw [effect_pushb_of_not_lt (s := s.quiet) hfull]; rfl

/-- Settles O45: a lone POPB in a bound state has its effect, which the comparison of the cursors decides. -/
theorem popbCompletes : Obligations.PopbCompletes := by
  intro s hf hb
  rw [exec_of_bound rfl rfl (by decide) hf hb]
  refine ⟨fun hne => ?_, fun he => ?_⟩
  · rw [effect_popb_of_ne (s := s.quiet) hne]; rfl
  · rw [effect_popb_of_eq (s := s.quiet) he]; rfl

end Sys2Proof.Proofs
end

section

/-! The filling of an empty buffer by PUSHBs alone (41 R142). -/

namespace Sys2Proof.Machine

open Sys2Proof.Spec

/-- One more edge behind a run. -/
theorem run_step {s t u : State} {n : Nat} (hrun : Host.Core.run core n s = .next t) (hstep : step t = .next u) :
    Host.Core.run core (n + 1) s = .next u := by
  induction n generalizing s with
  | zero => cases hrun; exact run_succ hstep 0
  | succ n ih =>
    obtain ⟨v, hv, -⟩ := edgeStep_outcome s.nextEdge.2 s.nextEdge.1
    rw [run_succ hv] at hrun ⊢
    exact ih hrun

/-- A PUSHB alone puts the byte it stores, if it stores it, behind the queue. -/
theorem effect_pushb_queue {s : State} (h : s.Inv) (v : Byte) :
    (effect (.pushb v) s.quiet).queue = s.queue ++ storedBytes s (some (.pushb v)) := by
  rw [← queuePushed_eq_storedBytes h.cursors, ← portsState_alone rfl (by simp [alone, Instr.port])]
  exact portsState_queue h (alone_onPorts rfl)

/-- The edges at which the bytes are pushed one by one, each PUSHB alone. -/
def pushEdges (bytes : List Byte) : List Edge := bytes.map fun b => Edge.ofInstr (.pushb b)

/-- `t` is the state that the first `k` of the PUSHBs of `bytes`, each alone and accepted, make of `s`. -/
structure FilledBy (s : State) (bytes : List Byte) (k : Nat) (t : State) : Prop where
  inv : t.Inv
  noFatal : t.fatal = false
  bound : t.bound = true
  mask : t.mask = s.mask
  fault : t.fault = s.fault
  queue : t.queue = bytes.take k
  inputs : t.inputs = pushEdges (bytes.drop k)

namespace FilledBy

variable {s t : State} {bytes : List Byte} {k : Nat}

theorem unread (h : FilledBy s bytes k t) (hk : k < bytes.length) : t.unread.toNat = k := by
  rw [← queue_length, h.queue, List.length_take_of_le hk.le]

/-- The next step runs the next PUSHB. -/
theorem step_eq (h : FilledBy s bytes k t) (hk : k < bytes.length) :
    step t = exec (.pushb bytes[k]) { t with inputs := pushEdges (bytes.drop (k + 1)) } :=
  step_ofInstr (by rw [h.inputs, List.drop_eq_getElem_cons hk]; rfl) rfl

/-- Below the full count the next PUSHB is accepted. -/
theorem accepted (h : FilledBy s bytes k t) (hk : k < bytes.length) (hlt : k < s.mask.toNat) :
    ∃ u, step t = .next u ∧ u.rspW = ⟨true, response 0 0 true⟩ ∧ FilledBy s bytes (k + 1) u := by
  have hroom : t.unread < t.mask := by rwa [BitVec.lt_def, h.unread hk, h.mask]
  have hpush := Proofs.pushbCompletes bytes[k] { t with inputs := pushEdges (bytes.drop (k + 1)) } h.noFatal h.bound
  have hstep := (h.step_eq hk).trans (hpush.1 hroom)
  have hqueue := effect_pushb_queue h.inv bytes[k]
  rw [effect_pushb_of_lt (s := t.quiet) hroom, storedBytes, if_pos hroom, h.queue,
    List.take_append_getElem hk] at hqueue
  exact ⟨_, hstep, rfl, Proofs.stepKeepsInvariant t _ h.inv hstep, h.noFatal, h.bound, h.mask, h.fault, hqueue, rfl⟩

/-- At the full count the next PUSHB is rejected. -/
theorem rejected (h : FilledBy s bytes k t) (hk : k < bytes.length) (hfull : k = s.mask.toNat) :
    ∃ u, step t = .next u ∧ u.rspW = ⟨true, response 0 0 false⟩ ∧ u.queue = bytes.take k ∧ u.fault = true := by
  have hno : ¬ t.unread < t.mask := by rw [BitVec.lt_def, h.unread hk, h.mask]; omega
  have hpush := Proofs.pushbCompletes bytes[k] { t with inputs := pushEdges (bytes.drop (k + 1)) } h.noFatal h.bound
  have hstep := (h.step_eq hk).trans (hpush.2 hno)
  exact ⟨_, hstep, rfl, h.queue, rfl⟩

end FilledBy

/-- The first `k` PUSHBs of a script are accepted, if they fill at most the usable capacity. -/
theorem run_fills {s : State} {bytes : List Byte} (h : FilledBy s bytes 0 s) {k : Nat} (hk : k < bytes.length)
    (hle : k ≤ s.mask.toNat) : ∃ t, Host.Core.run core k s = .next t ∧ FilledBy s bytes k t := by
  induction k with
  | zero => exact ⟨s, rfl, h⟩
  | succ k ih =>
    obtain ⟨t, hrun, ht⟩ := ih (by omega) (by omega)
    obtain ⟨u, hstep, -, hu⟩ := ht.accepted (by omega) hle
    exact ⟨u, run_step hrun hstep, hu⟩

end Sys2Proof.Machine
end

section

/-! The statement of 41_byte_transfer.md about the usable capacity, settled. -/

namespace Sys2Proof.Proofs

open Sys2Proof.Machine Sys2Proof.Spec

/-- Settles O56: from empty each PUSHB finds as many unread bytes as were pushed before it, which is below MASK until the
last. -/
theorem usableCapacityIsReached : Obligations.UsableCapacityIsReached := by
  intro s bytes k h hf hb hexp hempty hin hlen
  have hmask := h.cursors.mask_toNat
  have hpos := Nat.two_pow_pos s.exp.toNat
  have h0 : FilledBy s bytes 0 s := ⟨h, hf, hb, rfl, rfl, queue_of_cursors hempty, hin⟩
  refine ⟨(reportedCapacity s h.cursors).2 hexp, fun hk hlt => ?_, ?_⟩
  · obtain ⟨j, rfl⟩ : ∃ j, k = j + 1 := ⟨k - 1, by omega⟩
    obtain ⟨t, hrun, ht⟩ := run_fills h0 (k := j) (by omega) (by omega)
    obtain ⟨u, hstep, hrsp, hu⟩ := ht.accepted (by omega) (by omega)
    exact ⟨u, run_step hrun hstep, hrsp, hu.queue, hu.fault⟩
  · obtain ⟨t, hrun, ht⟩ := run_fills h0 (k := 2 ^ s.exp.toNat - 1) (by omega) (by omega)
    obtain ⟨u, hstep, hu⟩ := ht.rejected (by omega) hmask.symm
    have hlast := run_step hrun hstep
    rw [Nat.sub_add_cancel hpos] at hlast
    exact ⟨u, hlast, hu⟩

end Sys2Proof.Proofs
end

section

/-! What the statements about the bulk transfers need: the ring after a command alone, FAULT after a command in any
state, and the byte transfers of which a bulk transfer is the repetition (42 R163 to R165). -/

namespace Sys2Proof.Machine

open Sys2Proof.Spec

/-! ### A command alone, from an invariant state -/

theorem State.CursorInv.quiet {s : State} (h : s.CursorInv) : s.quiet.CursorInv := ⟨h.exp, h.mask, h.front, h.back⟩

theorem ne_bind_of_port {i : Instr} (hp : i.port ≠ .C) (n : Byte) (b : Nat) : i ≠ .bind n b := by
  rintro rfl
  exact hp rfl

/-- A W or R command's effect moves the ring. -/
theorem effect_ring {s : State} (h : s.Inv) {i : Instr} (hw : i.wellFormed = true) (hp : i.port ≠ .C) :
    RingMove s (effect i s.quiet) (storedBytes s (alone i).w) (removedCount s (alone i).r) := by
  rw [← portsState_alone hw fun n b hc => ne_bind_of_port hp n b (eq_of_alone_c hc)]
  exact ports_ring h.cursors h.storage.addrW (alone_onPorts hw)

/-- A W or R command's effect keeps the cursors' invariant (10 R36). -/
theorem effect_cursors {s : State} (h : s.CursorInv) {i : Instr} (hp : i.port ≠ .C) : (effect i s.quiet).CursorInv :=
  effect_cursorInv h.quiet fun n b hi => absurd hi (ne_bind_of_port hp n b)

theorem clamp_of_lt {len available : Cursor} (h : available < len) : clamp len available = available.toNat :=
  Nat.min_eq_right (Nat.le_of_lt (BitVec.lt_def.mp h))

/-! ### FAULT after a command in any state (10 R27, 42 R165) -/

/-- Every command answers a next state, whose FAULT is the old one or what the command's effect makes of it. -/
theorem exec_fault (i : Instr) (s : State) :
    ∃ t, exec i s = .next t ∧ (t.fault = s.fault ∨ t.fault = (effect i s.quiet).fault) := by
  cases hf : s.fatal with
  | true => exact ⟨_, exec_of_fatal hf i, .inl rfl⟩
  | false =>
    cases he : aloneError s i with
    | none => exact ⟨_, exec_of_ok hf he, .inr rfl⟩
    | some x => exact ⟨_, exec_of_error hf he, .inl rfl⟩

/-- No effect but a PUSHB's sets FAULT. -/
theorem fault_of_effect_fault {i : Instr} {s : State} (hi : ∀ v, i ≠ .pushb v) (h : (effect i s).fault = true) :
    s.fault = true := by
  by_contra hs
  rcases portEffect_fault_ne (i := some i) (s := s) fun heq => hs (heq.symm.trans h) with ⟨v, hv, -⟩ | ⟨-, hclear⟩
  · exact hi v (Option.some.inj hv)
  · exact Bool.false_ne_true (hclear.symm.trans h)

/-! ### PUSHBs one after the other -/

/-- What is stored at masked indices is the same in two states with one binding and storage. -/
theorem SameStorage.writeMasked {s t : State} (h : SameStorage s t) (i : Cursor) (bs : List Byte) :
    SameStorage (s.writeMasked i bs) (t.writeMasked i bs) := by
  induction bs generalizing s t i with
  | nil => exact h
  | cons b bs ih =>
    have hb : SameStorage (s.writeSlot i b) (t.writeSlot i b) :=
      ⟨h.mask, h.base, h.addrW, by simp only [writeSlot_mem, h.slot, h.mem]⟩
    rw [State.writeMasked, State.writeMasked, h.advance]
    exact ih hb (s.advance i 1)

/-- `t` is what an accepted PUSHB of `v` makes of `s`. -/
structure BytePushed (s : State) (v : Byte) (t : State) : Prop where
  cursors : t.CursorInv
  noFatal : t.fatal = false
  bound : t.bound = true
  storage : SameStorage (s.writeSlot s.back v) t
  back : t.back = s.advance s.back 1
  answer : t.rspW.word = response 0 0 true
  free : t.free.toNat + 1 = s.free.toNat

/-- With a free slot a PUSHB is accepted (41 R140). -/
theorem exec_pushb_of_free {s : State} (h : s.CursorInv) (hf : s.fatal = false) (hb : s.bound = true)
    (hfree : 0 < s.free.toNat) (v : Byte) : ∃ t, exec (.pushb v) s = .next t ∧ BytePushed s v t := by
  have hsum := free_add_unread h
  have hlt : s.unread < s.mask := by rw [BitVec.lt_def]; omega
  have ht : (effect (.pushb v) s.quiet).CursorInv := effect_cursors h (by simp [Instr.port])
  have hexec := exec_of_bound (i := .pushb v) rfl rfl (by simp [Instr.port]) hf hb
  rw [effect_pushb_of_lt (s := s.quiet) hlt] at ht hexec
  have hunread := unread_moved h ht rfl (h.advance_zero h.front_lt).symm rfl (Nat.zero_le _) hfree
  have hsum' := (free_add_unread ht).trans (congrArg BitVec.toNat (quiet_mask s))
  exact ⟨_, hexec, ht, hf, hb, ⟨rfl, rfl, rfl, rfl⟩, rfl, rfl, by omega⟩

theorem pushEach_cons {s t : State} {b : Byte} (hexec : exec (.pushb b) s = .next t)
    (hanswer : t.rspW.word = response 0 0 true) (bs : List Byte) : pushEach (b :: bs) s = pushEach bs t := by
  rw [pushEach, hexec]
  exact if_pos hanswer

/-- The PUSHBs of bytes for which there is room are all accepted, and store them at the masked indices from BACK on. -/
theorem pushEach_of_free {s : State} (h : s.CursorInv) (hf : s.fatal = false) (hb : s.bound = true) {bs : List Byte}
    (hfree : bs.length ≤ s.free.toNat) :
    ∃ u, pushEach bs s = some u ∧ u.back = s.advance s.back bs.length ∧ u.mem = (s.writeMasked s.back bs).mem := by
  induction bs generalizing s with
  | nil => exact ⟨s, rfl, (h.advance_zero h.back_lt).symm, rfl⟩
  | cons b bs ih =>
    rw [List.length_cons] at hfree
    obtain ⟨t, hexec, p⟩ := exec_pushb_of_free h hf hb (by omega) b
    obtain ⟨u, hpush, hback, hmem⟩ := ih p.cursors p.noFatal p.bound (by have := p.free; omega)
    refine ⟨u, (pushEach_cons hexec p.answer bs).trans hpush, ?_, ?_⟩
    · rw [hback, p.back, p.storage.advance, writeSlot_advance, h.advance_advance, List.length_cons, Nat.add_comm 1]
    · rw [hmem, p.back, State.writeMasked]
      exact (p.storage.writeMasked _ _).mem

/-! ### POPBs one after the other -/

/-- `t` is what a POPB that finds a byte makes of `s`. -/
structure BytePopped (s t : State) : Prop where
  cursors : t.CursorInv
  noFatal : t.fatal = false
  bound : t.bound = true
  storage : SameStorage s t
  front : t.front = s.advance s.front 1
  answer : t.rspR.word = response 0 (s.readSlot s.front) true
  unread : t.unread.toNat + 1 = s.unread.toNat

/-- With an unread byte a POPB finds one (41 R141). -/
theorem exec_popb_of_unread {s : State} (h : s.CursorInv) (hf : s.fatal = false) (hb : s.bound = true)
    (hu : 0 < s.unread.toNat) : ∃ t, exec .popb s = .next t ∧ BytePopped s t := by
  have hne : s.front ≠ s.back := fun he => hu.ne' (h.unread_eq_zero_iff.mpr he)
  have ht : (effect .popb s.quiet).CursorInv := effect_cursors h (by decide)
  have hexec := exec_of_bound (i := .popb) rfl rfl (by decide) hf hb
  rw [effect_popb_of_ne (s := s.quiet) hne] at ht hexec
  have hunread := unread_moved h ht rfl rfl (h.advance_zero h.back_lt).symm hu (Nat.zero_le _)
  exact ⟨_, hexec, ht, hf, hb, ⟨rfl, rfl, rfl, rfl⟩, rfl, rfl, by omega⟩

theorem popEach_succ {s t u : State} {n : Nat} {b : Byte} {bs : List Byte} (hexec : exec .popb s = .next t)
    (hanswer : t.rspR.word = response 0 b true) (hpop : popEach n t = some (bs, u)) :
    popEach (n + 1) s = some (b :: bs, u) := by
  rw [popEach, hexec]
  simp only [hanswer, response_data, if_true, hpop]

/-- As many POPBs as there are unread bytes, or fewer, each find one, the oldest first. -/
theorem popEach_of_unread {s : State} (h : s.CursorInv) (hf : s.fatal = false) (hb : s.bound = true) {n : Nat}
    (hn : n ≤ s.unread.toNat) :
    ∃ u, popEach n s = some ((List.range n).map fun j => s.readSlot (s.unreadIndex j), u) ∧
      u.front = s.advance s.front n ∧ u.mem = s.mem := by
  induction n generalizing s with
  | zero => exact ⟨s, rfl, (h.advance_zero h.front_lt).symm, rfl⟩
  | succ n ih =>
    obtain ⟨t, hexec, p⟩ := exec_popb_of_unread h hf hb (by omega)
    obtain ⟨u, hpop, hfront, hmem⟩ := ih p.cursors p.noFatal p.bound (by have := p.unread; omega)
    have hadvance : ∀ j, t.advance t.front j = s.advance s.front (j + 1) := fun j => by
      rw [p.front, p.storage.advance, h.advance_advance, Nat.add_comm 1]
    refine ⟨u, (popEach_succ hexec p.answer hpop).trans ?_, hfront.trans (hadvance n), hmem.trans p.storage.mem⟩
    simp only [List.range_succ_eq_map, List.map_cons, List.map_map, Function.comp_def, State.unreadIndex, hadvance,
      p.storage.readSlot, h.advance_zero h.front_lt]

end Sys2Proof.Machine
end

section

/-! The statements of 42_bulk_transfer.md, settled. -/

namespace Sys2Proof.Proofs

open Sys2Proof.Machine Sys2Proof.Spec

/-- Settles O44: a lone PUSHN moves the ring, and its effect keeps the storage list's form. -/
theorem pushnCompletes : Obligations.PushnCompletes := by
  intro len pay s h hf hb
  have hring := effect_ring h (i := .pushn len pay) rfl (by simp [Instr.port])
  have hstorage : s.quiet.StorageInv := ⟨h.storage.addrW, h.storage.base, h.storage.memWf, h.storage.memFits⟩
  have hcount := storedBytes_pushn_length s len pay
  refine ⟨(effect (.pushn len pay) s.quiet).mem, exec_of_bound rfl rfl (by simp [Instr.port]) hf hb,
    (effect_storage hstorage).memWf, fun j hj hn => ?_, fun a ha => ?_⟩
  · exact (hring.stored j (hn.trans_eq hcount.symm)).trans (congrArg some List.getElem_take)
  · exact hring.kept a fun j hj => ha j (hj.trans_eq hcount)

/-- Settles O46: a lone POPN changes the reader's part alone, and its split read gives the oldest bytes in order. -/
theorem popnCompletes : Obligations.PopnCompletes := by
  intro len s h hf hb
  rw [exec_of_bound rfl rfl (by simp [Instr.port]) hf hb, effect_on_R rfl, effect_popn_payload h.quiet]
  rfl

/-- Settles O51: clamped, a PUSHN stores as many bytes as are free and a POPN removes as many as are unread. -/
theorem bulkTransfersAreClamped : Obligations.BulkTransfersAreClamped := by
  intro s len pay h hf hb
  have hc := h.cursors
  refine ⟨fun hlt => ?_, fun hlt => ?_⟩
  · have hclamp := clamp_of_lt hlt
    have hp : (Instr.pushn len pay).port ≠ .C := by simp [Instr.port]
    have hring := effect_ring h rfl hp
    have ht := effect_cursors hc hp
    have hcount := storedBytes_pushn_length s len pay
    refine ⟨_, exec_of_bound rfl rfl hp hf hb, ?_, ?_, ?_⟩
    · simp [effect, hclamp]
    · have hsum := free_add_unread hc
      have hunread : _ = s.unread.toNat - 0 + (storedBytes s (some (.pushn len pay))).length := hring.unread hc ht
      exact BitVec.eq_of_toNat_eq (by omega)
    · rw [← hclamp]
      exact hring.queue hc ht h.storage.addrW
  · have hclamp := clamp_of_lt hlt
    have hp : (Instr.popn len).port ≠ .C := by simp [Instr.port]
    have hring := effect_ring h rfl hp
    have ht := effect_cursors hc hp
    refine ⟨_, exec_of_bound rfl rfl hp hf hb, ?_, ?_, ?_⟩
    · simp [effect, hclamp]
    · have hunread : _ = s.unread.toNat - clamp len s.unread + 0 := hring.unread hc ht
      exact BitVec.eq_of_toNat_eq (by simp [hunread, hclamp])
    · have hle : s.queue.length ≤ len.toNat := (queue_length s).trans_le (BitVec.lt_def.mp hlt).le
      exact (effect_popn_payload_eq_take hc.quiet len).trans (List.take_of_length_le hle)

/-- Settles O52: outside an accepted command FAULT stays as it was, and only a rejected PUSHB's effect sets it. -/
theorem onlyPushbSetsFault : Obligations.OnlyPushbSetsFault := by
  refine ⟨fun s v hf hb hfull => ⟨_, (pushbCompletes v s hf hb).2 hfull, rfl⟩, fun s len pay => ?_, fun s i hi => ?_⟩
  · obtain ⟨t, hexec, hkept | heffect⟩ := exec_fault (.pushn len pay) s
    · exact ⟨t, hexec, hkept⟩
    · exact ⟨t, hexec, heffect⟩
  · obtain ⟨t, hexec, hkept | heffect⟩ := exec_fault i s
    · exact ⟨t, hexec, hkept.symm.trans⟩
    · exact ⟨t, hexec, fun ht => fault_of_effect_fault (s := s.quiet) hi (heffect.symm.trans ht)⟩

/-- Settles O54: the byte transfers and the split runs of the bulk transfers use the same masked indices. -/
theorem bulkIsRepeatedBytes : Obligations.BulkIsRepeatedBytes := by
  intro s h hf hb
  have hc := h.cursors
  refine ⟨fun len pay => ?_, fun len => ?_⟩
  · have hW : ∀ j, some (Instr.pushn len pay) = some j → j.port = .W := by rintro j ⟨⟩; rfl
    obtain ⟨u, hpush, hback, hmem⟩ := pushEach_of_free hc hf hb (storedBytes_le_free hc (some (.pushn len pay)))
    have hquiet : SameStorage s s.quiet := ⟨rfl, rfl, rfl, rfl⟩
    refine ⟨_, u, exec_of_bound rfl rfl (by simp [Instr.port]) hf hb, hpush, ?_, ?_, rfl, rfl⟩
    · exact (portEffect_back hc.quiet hW).trans hback.symm
    · calc (effect (.pushn len pay) s.quiet).mem
          = (s.quiet.writeMasked s.back (storedBytes s (some (.pushn len pay)))).mem := portEffect_mem hc.quiet hW
        _ = (s.writeMasked s.back (storedBytes s (some (.pushn len pay)))).mem := (hquiet.writeMasked _ _).mem
        _ = u.mem := hmem.symm
  · obtain ⟨u, hpop, hfront, hmem⟩ := popEach_of_unread hc hf hb (n := clamp len s.unread) (Nat.min_le_right _ _)
    exact ⟨_, u, _, exec_of_bound rfl rfl (by simp [Instr.port]) hf hb, hpop, hfront.symm, hmem.symm,
      effect_popn_payload hc.quiet len, rfl, rfl⟩

end Sys2Proof.Proofs
end

section

/-! What the statements about errors need: `FirstError` in the order of its tests, and the edges of the FATAL state
(60_exceptions.md R182 to R186). -/

namespace Sys2Proof.Machine

open Sys2Proof.Spec

/-! ### Part 1 of `FirstError`: malformed words, in the order C, W, R -/

theorem firstError_of_malformed {e : Edge} {x : ErrCode × Port} (hd : decodeEdge e = .error x) (s : State) :
    firstError s e = some x := by
  simp [firstError, hd]

theorem decodeEdge_of_malformed_C {e : Edge} {x : ErrCode} (hc : decodeC e.c = .error x) :
    decodeEdge e = .error (x, .C) := by
  simp [decodeEdge, hc]

theorem decodeEdge_of_malformed_W {e : Edge} {c : Option Instr} {x : ErrCode} (hc : decodeC e.c = .ok c)
    (hw : decodeW e.w = .error x) : decodeEdge e = .error (x, .W) := by
  simp [decodeEdge, hc, hw]

theorem decodeEdge_of_malformed_R {e : Edge} {c w : Option Instr} {x : ErrCode} (hc : decodeC e.c = .ok c)
    (hw : decodeW e.w = .ok w) (hr : decodeR e.r = .error x) : decodeEdge e = .error (x, .R) := by
  simp [decodeEdge, hc, hw, hr]

/-! ### Parts 2 and 3: well-formed commands, with and without a BIND -/

theorem semanticError_of_bind (s : State) (n : Byte) (b : Nat) (w r : Option Instr) :
    semanticError s ⟨some (.bind n b), w, r⟩ =
      if active w then some (.bindConflict, .W)
      else if active r then some (.bindConflict, .R)
      else if 16 < n.toNat then some (.badExponent, .C)
      else none := rfl

theorem semanticError_of_not_binds (s : State) {d : Accepted} (hb : binds d = false) :
    semanticError s d =
      if s.bound then none
      else if active d.w then some (.unbound, .W)
      else if active d.r then some (.unbound, .R)
      else none := by
  unfold semanticError
  split
  · rename_i n b hc; exact absurd hc (ne_bind_of_binds_eq_false hb n b)
  · rfl

/-! ### The FATAL state -/

theorem Rsp.with_valid_false {r : Rsp} (h : r.valid = false) : ({ r with valid := false } : Rsp) = r := by
  rw [← h]

/-- In FATAL no response is valid, so an edge at which nothing is accepted has none to clear (60 R185). -/
theorem State.ControlInv.quiet_of_fatal {s : State} (h : s.ControlInv) (hf : s.fatal = true) : s.quiet = s := by
  obtain ⟨hC, hW, hR⟩ := h.silent hf
  rw [State.quiet, Rsp.with_valid_false hC, Rsp.with_valid_false hW, Rsp.with_valid_false hR]

/-- Of the ways an edge can go, those that start in FATAL keep it, but for reset (60 R186). -/
theorem EdgeOutcome.reset_of_leaves_fatal {s t : State} {e : Edge} (o : EdgeOutcome s e t) (hs : s.fatal = true)
    (ht : t.fatal = false) : e.rst = true ∧ t = s.resetEdge := by
  cases o with
  | reset hr h => exact ⟨hr, h⟩
  | frozen hr hf h => subst h; exact absurd (hs.symm.trans ht) (by decide)
  | error hr hf | bind hr hf | ports hr hf => exact absurd (hs.symm.trans hf) (by decide)

end Sys2Proof.Machine
end

section

/-! The statements of 60_exceptions.md, settled. -/

namespace Sys2Proof.Proofs

open Sys2Proof.Machine Sys2Proof.Spec

/-- Settles O28: an edge in error goes the one way of fatal entry. -/
theorem fatalEntryWritesExactly : Obligations.FatalEntryWritesExactly :=
  fun _ _ x p hr hf hx => (EdgeOutcome.error hr hf x p hx rfl).edgeStep_eq

/-- Settles O29: malformed words hide the later tests, and the rest is the order of the tests with and without a BIND. -/
theorem firstErrorPriority : Obligations.FirstErrorPriority := by
  refine fun s e =>
    ⟨fun x hc => firstError_of_malformed (decodeEdge_of_malformed_C hc) s,
      fun c x hc hw => firstError_of_malformed (decodeEdge_of_malformed_W hc hw) s,
      fun c w x hc hw hr => firstError_of_malformed (decodeEdge_of_malformed_R hc hw hr) s,
      fun n b w r hd => ?_, fun d hd hb => ?_⟩
  · rw [firstError_of_decoded hd, semanticError_of_bind]
    refine ⟨fun hw => ?_, fun hw hr => ?_, fun hw hr hn => ?_, fun hw hr hn => ?_⟩
    · simp [hw]
    · simp [hw, hr]
    · simp [hw, hr, hn]
    · simp [hw, hr, Nat.not_lt.mpr hn]
  · rw [firstError_of_decoded hd, semanticError_of_not_binds s hb]
    refine ⟨fun hs => ?_, fun hs hw => ?_, fun hs hw hr => ?_, fun hs hw hr => ?_⟩
    · simp [hs]
    · simp [hs, hw]
    · simp [hs, hw, hr]
    · simp [hs, hw, hr]

/-- Settles O30: no port is ready, the edge has no valid response to clear, and STATUS shows the error registers. -/
theorem fatalStateIsFrozen : Obligations.FatalStateIsFrozen := by
  intro s e h hf hr
  obtain ⟨hC, hW, hR⟩ := h.silent hf
  obtain ⟨-, -, -, -, hfatal⟩ := status_flags s
  have hstep : edgeStep s e = .next s := (EdgeOutcome.frozen hr hf (h.quiet_of_fatal hf).symm).edgeStep_eq
  exact ⟨by simp [State.ready, hf], hstep, hC, hW, hR, hfatal.trans hf, status_errcode s, status_errport s⟩

/-- Settles O31: the one edge that leaves FATAL is reset, which unbinds. -/
theorem onlyResetLeavesFatal : Obligations.OnlyResetLeavesFatal := by
  intro s t e hstep hs ht
  obtain ⟨hr, rfl⟩ := (edgeStep_cases hstep).reset_of_leaves_fatal hs ht
  exact ⟨hr, resetEdge_bound s⟩

end Sys2Proof.Proofs
end

section

/-! What the statements about reset and hazards need: the ready output, and the pending inputs along a run
(70_reset_and_hazards.md R210, R222). -/

namespace Sys2Proof.Machine

/-- A port is not ready at a reset edge and in FATAL, and only then (30 R82). -/
theorem ready_eq_false_iff (s : State) (rst : Bool) : s.ready rst = false ↔ rst = true ∨ s.fatal = true := by
  cases rst <;> simp [State.ready]

/-- No edge touches the lines presented at the later ones (log entry 2). -/
theorem EdgeOutcome.inputs_eq {s t : State} {e : Edge} (o : EdgeOutcome s e t) : t.inputs = s.inputs := by
  cases o with
  | reset hr ht => rw [ht, resetEdge_inputs]
  | frozen hr hf ht => rw [ht, quiet_inputs]
  | error hr hf x p hx ht => rw [ht, fatalEntry_inputs]
  | bind hr hf d hd hs n b hc hn hw hv ht => rw [ht, effect, quiet_inputs]
  | ports hr hf d hd hs hc ht => rw [ht, mergePorts_inputs]

/-- Every state has a step, which takes one line off the pending inputs (70 R222). -/
theorem step_next (s : State) : ∃ t, step s = .next t ∧ t.inputs = s.inputs.drop 1 := by
  obtain ⟨t, hstep, -⟩ := edgeStep_outcome s.nextEdge.2 s.nextEdge.1
  exact ⟨t, hstep, (step_cases hstep).inputs_eq⟩

/-- A run never stops: its `n` steps take `n` lines off the pending inputs. -/
theorem run_next (n : Nat) (s : State) :
    ∃ t, Host.Core.run core n s = .next t ∧ t.inputs = s.inputs.drop n := by
  induction n generalizing s with
  | zero => exact ⟨s, rfl, rfl⟩
  | succ n ih =>
    obtain ⟨u, hstep, hu⟩ := step_next s
    obtain ⟨t, hrun, ht⟩ := ih u
    exact ⟨t, (run_succ hstep n).trans hrun, by rw [ht, hu, List.drop_drop, Nat.add_comm]⟩

end Sys2Proof.Machine
end

section

/-! The statements of 70_reset_and_hazards.md, settled. -/

namespace Sys2Proof.Proofs

open Sys2Proof.Machine

/-- Settles O21: a run by induction on its length, and the ready output by its definition without reset. -/
theorem everyEdgeIsAStep : Obligations.EveryEdgeIsAStep :=
  ⟨run_next, fun s => (ready_eq_false_iff s false).trans (by simp)⟩

/-- Settles O13: the edge is `resetEdge`, before FATAL and the ports' commands are looked at. -/
theorem resetEdgeValues : Obligations.ResetEdgeValues := by
  intro s e hr
  have hstep : edgeStep s e = .next s.resetEdge := (EdgeOutcome.reset hr rfl).edgeStep_eq
  exact ⟨(ready_eq_false_iff s e.rst).mpr (.inl hr), s.resetEdge, hstep, by simp [Rsp.reset]⟩

end Sys2Proof.Proofs
end
